-- ==== Sys2Proof/Config.lean ====
section
/-! DEFINITION. The constants of 00_scope.md R5 and the two open parameters of the spec, fixed for this model.
The block has no value the spec leaves undefined, so there is no free value here (93_implementation_defined.md). -/

namespace Sys2Proof.Config

/-- R5 BYTE_W: width of a byte. -/
abbrev byteW : Nat := 8
/-- R5 SYM_W: width of a symbol's value. -/
abbrev symW : Nat := 5
/-- R5 ENC_GROUP_BYTES. -/
abbrev encGroupBytes : Nat := 5
/-- R5 DEC_GROUP_SYMS. -/
abbrev decGroupSyms : Nat := 8
/-- R5 ALPHABET_SIZE. -/
abbrev alphabetSize : Nat := 32
/-- R5, R14 CHAR_W: an open parameter of the spec (D6), here its default. DESIGN CHOICE, log 4. -/
abbrev charW : Nat := 8
/-- R5 MAX_LEN: an open parameter of the spec (D11), here its default, no bound. DESIGN CHOICE, log 5. -/
abbrev maxLen : Option Nat := none

end Sys2Proof.Config
end

