-- ==== Sys2Proof/Word.lean ====
section
/-! DEFINITION. The words the block moves: bytes, characters, 5-bit values, the 40-bit group with its two views
(30_encoding.md R45), and the raw command record (30_encoding.md R50). -/

namespace Sys2Proof

/-- An 8-bit unsigned value (R5, R8). -/
abbrev Byte := BitVec 8

/-- A character code of CHAR_W = 8 bits (R14). DESIGN CHOICE CHAR_W = 8, log 4. -/
abbrev Chr := BitVec 8

/-- The content of one symbol, 0..31 (R9 "Value or field"). -/
abbrev Value := BitVec 5

/-- The byte view of a 40-bit group: `b0` is group bits 39:32 (R45). -/
structure ByteGroup where
  b0 : Byte
  b1 : Byte
  b2 : Byte
  b3 : Byte
  b4 : Byte
deriving DecidableEq, Repr

/-- The field view of a 40-bit group: `s0` is group bits 39:35 (R45). -/
structure FieldGroup where
  s0 : Value
  s1 : Value
  s2 : Value
  s3 : Value
  s4 : Value
  s5 : Value
  s6 : Value
  s7 : Value
deriving DecidableEq, Repr

/-- The 40-bit string `b0 ++ b1 ++ b2 ++ b3 ++ b4` (R30). -/
def ByteGroup.bits (q : ByteGroup) : BitVec 40 := q.b0 ++ q.b1 ++ q.b2 ++ q.b3 ++ q.b4

/-- The 40-bit string `x0 ++ x1 ++ ... ++ x7` (R31). -/
def FieldGroup.bits (f : FieldGroup) : BitVec 40 :=
  f.s0 ++ f.s1 ++ f.s2 ++ f.s3 ++ f.s4 ++ f.s5 ++ f.s6 ++ f.s7

/-- A command as the block receives it (R50): the header `op, present` with `present` in bit 0, the number of
payload elements, and the payload, element 0 first. Bytes and characters are both 8 bits wide here (log 4), so one
payload type serves both operations. The record is the machine's word: the spec gives `len` and `payload` no binary
layout (log 9). -/
structure Command where
  header  : BitVec 2
  len     : Nat
  payload : List (BitVec 8)
deriving DecidableEq, Repr

end Sys2Proof
end

