-- ==== Sys2Proof/Syntax.lean ====
section
/-! DEFINITION. The two operations of spec/opcode_table.json (30_encoding.md R54) with the command's operand
fields (R50). The internal functions ENC.GROUP, SYM.MAP, CHR.LOOKUP and DEC.GROUP have no encoding (R54). -/

namespace Sys2Proof

/-- One constructor per row of the opcode table. `len` and `payload` are kept for a null command too: R51 says what
such a command does whatever they hold. -/
inductive Instr where
  /-- ENCODE, header `0p` (R64): the payload is a byte sequence. -/
  | encode (present : Bool) (len : Nat) (payload : List Byte)
  /-- DECODE, header `1p` (R85): the payload is a text. -/
  | decode (present : Bool) (len : Nat) (payload : List Chr)
deriving DecidableEq, Repr

end Sys2Proof
end

