-- ==== Sys2Proof/WellFormed.lean ====
section
/-! DEFINITION. When a term of Instr is a command of the spec: R50 says a payload has `len` elements, and that both
fields are ignored when `present = 0`. Every element value and every length is legal (R37, R55, R117). -/

namespace Sys2Proof

/-- The one check on a command's operand fields (R50). -/
def operandsWellFormed (present : Bool) (len : Nat) (payload : List (BitVec 8)) : Bool :=
  !present || len == payload.length

/-- A command of R50. -/
def Instr.wellFormed : Instr → Bool
  | .encode present len payload => operandsWellFormed present len payload
  | .decode present len payload => operandsWellFormed present len payload

end Sys2Proof
end

