-- ==== Sys2Proof/Decode.lean ====
section
/-! DEFINITION. Reading a command record as an instruction (30_encoding.md R50, R54), the encoder, and the host's
reading of an opcode-table word. -/

namespace Sys2Proof

/-- Why a command record is no command of R50. -/
inductive DecodeError where
  /-- `present = 1` and the payload has not `len` elements (log 8). -/
  | lengthMismatch
deriving DecidableEq, Repr

/-- Header bit 1 (R50, R54): 0 = ENCODE, 1 = DECODE. -/
def headerOp (header : BitVec 2) : Bool := header.getLsbD 1

/-- Header bit 0 (R50): 1 = the input sequence exists. -/
def headerPresent (header : BitVec 2) : Bool := header.getLsbD 0

/-- The decoder, total on every command record. No header is reserved (R55). -/
def decodeCommand (c : Command) : Except DecodeError Instr :=
  let present := headerPresent c.header
  if operandsWellFormed present c.len c.payload then
    match headerOp c.header with
    | false => .ok (.encode present c.len c.payload)
    | true => .ok (.decode present c.len c.payload)
  else .error .lengthMismatch

/-- The header with `op` in bit 1 and `present` in bit 0 (R50, R54). -/
def headerOf (op present : Bool) : BitVec 2 :=
  match op, present with
  | false, false => 0b00
  | false, true => 0b01
  | true, false => 0b10
  | true, true => 0b11

/-- The encoder: the command record of an instruction (R50, R54). -/
def encodeCommand : Instr → Command
  | .encode present len payload => ⟨headerOf false present, len, payload⟩
  | .decode present len payload => ⟨headerOf true present, len, payload⟩

/-- The command an opcode-table word stands for: the table numbers the 2 header bits only, so `len` and `payload`,
which lie outside it, are 0 and empty, and the bits above bit 1 that fill the word up to whole bytes belong to no
field (log 9). -/
def tableCommand (nbits w : Nat) : Command := ⟨BitVec.ofNat 2 (w % 2 ^ nbits), 0, []⟩

/-- The instruction the decoder reads from an opcode-table word. -/
def decodeTableWord (nbits w : Nat) : Option Instr :=
  match decodeCommand (tableCommand nbits w) with
  | .ok i => some i
  | .error _ => none

end Sys2Proof
end

