-- ==== Sys2Proof/Machine/Tables.lean ====
section
/-! DEFINITION. The contents of the two constant tables, transcribed from 10_state.md: ENC_ROM entry by entry from
R15, DEC_ROM row by row from the 16-column map of R18. R17's defining equation is stated of it as an obligation. -/

namespace Sys2Proof.Machine

/-- R15, values 0 to 15: `0123456789ABCDEF`. -/
def encRomLow : List Chr :=
  [0x30, 0x31, 0x32, 0x33, 0x34, 0x35, 0x36, 0x37, 0x38, 0x39, 0x41, 0x42, 0x43, 0x44, 0x45, 0x46]

/-- R15, values 16 to 31: `GHJKMNPQRSTVWXYZ`. The last entry rests on elimination (R16, log 15). -/
def encRomHigh : List Chr :=
  [0x47, 0x48, 0x4A, 0x4B, 0x4D, 0x4E, 0x50, 0x51, 0x52, 0x53, 0x54, 0x56, 0x57, 0x58, 0x59, 0x5A]

/-- ENC_ROM (R15): 32 entries addressed by a value. -/
def encRomInit : Vector Chr 32 := ⟨⟨encRomLow ++ encRomHigh⟩, rfl⟩

/-- A row of R18's map with no accepted character (0x00, 0x10, 0x20 and every row from 0x80 on). -/
def decRowAbsent : List (Option Value) := List.replicate 16 none

/-- R18, row 0x30: the digits. -/
def decRowDigits : List (Option Value) :=
  [some 0, some 1, some 2, some 3, some 4, some 5, some 6, some 7, some 8, some 9, none, none, none, none, none, none]

/-- R18, rows 0x40 and 0x60: `A` to `O` and `a` to `o`. -/
def decRowAtoO : List (Option Value) :=
  [none, some 10, some 11, some 12, some 13, some 14, some 15, some 16,
   some 17, some 1, some 18, some 19, some 1, some 20, some 21, some 0]

/-- R18, rows 0x50 and 0x70: `P` to `Z` and `p` to `z`, with `U` and `u` absent (R19). -/
def decRowPtoZ : List (Option Value) :=
  [some 22, some 23, some 24, some 25, some 26, none, some 27, some 28,
   some 29, some 30, some 31, none, none, none, none, none]

/-- R18, the 128 codes from 0x80 on: all absent (R93). -/
def decRowsHigh : List (Option Value) :=
  decRowAbsent ++ decRowAbsent ++ decRowAbsent ++ decRowAbsent ++
  decRowAbsent ++ decRowAbsent ++ decRowAbsent ++ decRowAbsent

/-- The nine pieces of R18's map have 256 entries. -/
theorem decRows_length : (decRowAbsent ++ decRowAbsent ++ decRowAbsent ++ decRowDigits ++
    decRowAtoO ++ decRowPtoZ ++ decRowAtoO ++ decRowPtoZ ++ decRowsHigh).length = 256 := by
  have absent : decRowAbsent.length = 16 := List.length_replicate
  have digits : decRowDigits.length = 16 := rfl
  have lower : decRowAtoO.length = 16 := rfl
  have upper : decRowPtoZ.length = 16 := rfl
  simp only [List.length_append, absent, digits, lower, upper, decRowsHigh]

/-- DEC_ROM (R17, R18): 256 entries addressed by a character code. -/
def decRomInit : Vector (Option Value) 256 :=
  ⟨⟨decRowAbsent ++ decRowAbsent ++ decRowAbsent ++ decRowDigits ++
    decRowAtoO ++ decRowPtoZ ++ decRowAtoO ++ decRowPtoZ ++ decRowsHigh⟩, decRows_length⟩

/-- The hardware form of a DEC_ROM entry, 6 bits `valid, value[4:0]`; absent is all zero (R17, R22). -/
def decEntryBits : Option Value → BitVec 6
  | some v => BitVec.ofBool true ++ v
  | none => 0

/-- `ENC_ROM[v]` for a given table (R15). -/
def encRead (rom : Vector Chr 32) (v : Value) : Chr := rom[v.toNat]'v.isLt

/-- `DEC_ROM[c]` for a given table (R17). -/
def decRead (rom : Vector (Option Value) 256) (c : Chr) : Option Value := rom[c.toNat]'c.isLt

end Sys2Proof.Machine
end

