-- ==== Sys2Proof/Machine/State.lean ====
section
/-! DEFINITION. The state of the block, its inputs and responses as plain data, the reasons a step can stop, and
reset (10_state.md R10 to R13, R22; 30_encoding.md R50, R52; 70_reset_and_hazards.md R135, R136). -/

namespace Sys2Proof.Machine

/-- The two failure kinds (60_exceptions.md R115, R116). They are answered in a response and the block goes on
(R120, R122); neither is a `Fault` of the model. -/
inductive Failure where
  /-- A null input (R115). -/
  | invalidArgument
  /-- A character absent from DEC_ROM, the first one of the text (R84, R116). -/
  | invalidSymbol (c : Chr)
deriving DecidableEq, Repr

/-- The `status` of a response (R52, R53). There is no fourth case (R55). -/
inductive Status where
  | ok
  | invalidArgument
  | invalidSymbol
deriving DecidableEq, Repr

/-- A response (R52). The payload holds characters after ENCODE and bytes after DECODE. -/
structure Response where
  status  : Status
  len     : Nat
  payload : List (BitVec 8)
  badChar : Chr
deriving DecidableEq, Repr

/-- What the host does to the block (70_reset_and_hazards.md R136, R139). -/
inductive Input where
  /-- A command issued and left to complete. -/
  | command (c : Command)
  /-- A reset, arriving while the operation of the given command is in progress, or with none in progress
  (R135, R136; log 10). -/
  | reset (inProgress : Option Command)
deriving DecidableEq, Repr

/-- The spec's state is the two constant tables (R10, R13, R22; log 3). `inputs` and `responses` are the model's
own: the spec calls the command an input of the step and the response an output of it (log 1, log 2). -/
structure State where
  /-- ENC_ROM (R15). -/
  encRom    : Vector Chr 32
  /-- DEC_ROM (R17, R18). -/
  decRom    : Vector (Option Value) 256
  /-- What the host does next, oldest first. -/
  inputs    : List Input
  /-- What the block has answered, oldest first. -/
  responses : List Response
deriving DecidableEq, Repr

/-- Nothing stops the block with a fault: its two failures are answered and it goes on (R117, R120, R122; log 12).
No definition raises a `Fault`; the type is empty, which is unsafe only if the hardware can stop. -/
inductive Fault where
deriving DecidableEq, Repr

/-- Why a step has no meaning in the model. -/
inductive Refusal where
  /-- Raised by an arm of `exec` with no meaning yet; no arm raises it. Safe. -/
  | notModelled (mnemonic : String)
  /-- Raised by `step` and by both meanings on a record that is no command of R50: `present = 1` and a payload that
  has not `len` elements (log 8). Safe: nothing is claimed of such a record. -/
  | lengthMismatch
deriving DecidableEq, Repr

/-- The block right after reset (R22, R135): the tables hold their constants and nothing else exists. The two lists
of the model's own are empty (DESIGN CHOICE, log 1, log 2). -/
def State.reset : State where
  encRom := encRomInit
  decRom := decRomInit
  inputs := []
  responses := []

end Sys2Proof.Machine
end

