-- ==== Sys2Proof/Machine/Flags.lean ====
section
/-! DEFINITION. The block has no flags (10_state.md R12); its one status is the field of a response. This file
says how status, payload and bad_char of a response follow from the result of an operation (30_encoding.md R52). -/

namespace Sys2Proof.Machine

/-- The spec's numbers for `status` (R52, R53; log 7). -/
def statusCode : Status → BitVec 2
  | .ok => 0
  | .invalidArgument => 1
  | .invalidSymbol => 2

/-- The status of a failure kind (R115, R116). -/
def failureStatus : Failure → Status
  | .invalidArgument => .invalidArgument
  | .invalidSymbol _ => .invalidSymbol

/-- `bad_char` of a failure kind: the offending character of InvalidSymbol, else 0 (R115, R116). -/
def failureBadChar : Failure → Chr
  | .invalidArgument => 0
  | .invalidSymbol c => c

/-- The response to an operation that ends with `return OK(payload)` (R8, R52). -/
def okResponse (payload : List (BitVec 8)) : Response := ⟨.ok, payload.length, payload, 0⟩

/-- The response to a failed operation: no payload (R121; log 19). -/
def failureResponse (f : Failure) : Response := ⟨failureStatus f, 0, [], failureBadChar f⟩

end Sys2Proof.Machine
end

