-- ==== Sys2Proof/Machine/Ops.lean ====
section
/-! DEFINITION. The operations both instructions share: table reads, the sequence arithmetic of 00_scope.md R7 and
R8, ending an operation with a response, raising a failure, and taking the next input. -/

/-- The bytes of a group in output order (R31). -/
def Sys2Proof.ByteGroup.toList (q : Sys2Proof.ByteGroup) : List Sys2Proof.Byte := [q.b0, q.b1, q.b2, q.b3, q.b4]

/-- The values of a group in output order (R45). -/
def Sys2Proof.FieldGroup.toList (f : Sys2Proof.FieldGroup) : List Sys2Proof.Value :=
  [f.s0, f.s1, f.s2, f.s3, f.s4, f.s5, f.s6, f.s7]

namespace Sys2Proof.Machine

/-- `ceil(p/q)` on naturals, as `floor((p + q - 1)/q)` (R7). -/
def ceilDiv (p q : Nat) : Nat := (p + (q - 1)) / q

/-- Element `i` of the zero-padded sequence: an index at or beyond the length reads as zero (R33, R34, R35). -/
def padded {w : Nat} (l : List (BitVec w)) (i : Nat) : BitVec w := l.getD i 0

/-- SYM.MAP (R63). -/
def symMap (rom : Vector Chr 32) (v : Value) : Chr := encRead rom v

/-- CHR.LOOKUP (R82). -/
def chrLookup (rom : Vector (Option Value) 256) (c : Chr) : Except Failure Value :=
  match decRead rom c with
  | some v => .ok v
  | none => .error (.invalidSymbol c)

/-- One response goes out (R52); the block keeps nothing of the operation (R120, R122). -/
def emit (r : Response) (s : State) : State := { s with responses := s.responses ++ [r] }

/-- `return OK(payload)` (R8). -/
def returnOk (payload : List (BitVec 8)) (s : State) : Host.Outcome State Fault Refusal :=
  .next (emit (okResponse payload) s)

/-- `raise <Kind>(info)` (R8): the one way a failure is reported. Nothing is saved, no mode changes and no control
goes to a handler (R120); there is no return from it (R122). -/
def raise (f : Failure) (s : State) : Host.Outcome State Fault Refusal :=
  .next (emit (failureResponse f) s)

/-- An operation ends with a whole payload or with a failure (R38). -/
def finish (result : Except Failure (List (BitVec 8))) (s : State) : Host.Outcome State Fault Refusal :=
  match result with
  | .ok payload => returnOk payload s
  | .error f => raise f s

/-- The host's next action, and the state with it taken (R139: one at a time, in order). -/
def nextInput (s : State) : Option (Input × State) :=
  match s.inputs with
  | [] => none
  | a :: rest => some (a, { s with inputs := rest })

/-- Reset: the tables hold their constants and no operation is in progress (R22, R135). An operation that was in
progress gets no response (R136). -/
def applyReset (s : State) : State := { s with encRom := encRomInit, decRom := decRomInit }

/-- The refusal of a record the decoder rejects (log 8). -/
def decodeRefusal : DecodeError → Refusal
  | .lengthMismatch => .lengthMismatch

/-- The host puts one more action in front of those that wait. -/
def pushInput (a : Input) (s : State) : State := { s with inputs := a :: s.inputs }

end Sys2Proof.Machine
end

