-- ==== Sys2Proof/Machine/Operands.lean ====
section
/-! DEFINITION. The operand forms of a command (30_encoding.md R50, R51): null, and present with `len` elements
(none of them for the empty input). -/

namespace Sys2Proof.Machine

/-- Reads the operand fields and goes on with the input sequence. A null input raises InvalidArgument whatever `len`
and `payload` hold, before anything else is looked at (R51, R115, R119). A payload that has not `len` elements is no
command (log 8). -/
def withInput (present : Bool) (len : Nat) (payload : List (BitVec 8)) (s : State)
    (body : List (BitVec 8) → Host.Outcome State Fault Refusal) : Host.Outcome State Fault Refusal :=
  match present with
  | false => raise .invalidArgument s
  | true => if len = payload.length then body payload else .refused .lengthMismatch

end Sys2Proof.Machine
end

