-- ==== Sys2Proof/Machine/DecodeOp.lean ====
section
/-! DEFINITION. DECODE: the inverse mapper with glyph normalisation and the packer (41_decode.md). -/

namespace Sys2Proof.Machine

/-- The lookup phase (R84): every character in ascending order, ending at the first absent one. -/
def lookupAll (rom : Vector (Option Value) 256) : List Chr → Except Failure (List Value)
  | [] => .ok []
  | c :: rest =>
    match chrLookup rom c with
    | .error f => .error f
    | .ok v =>
      match lookupAll rom rest with
      | .error f => .error f
      | .ok vs => .ok (v :: vs)

/-- DEC.GROUP (R83): shifts on unbounded naturals, the width imposed by the final mask (R7). -/
def decGroup (f : FieldGroup) : ByteGroup :=
  let x0 := f.s0.toNat
  let x1 := f.s1.toNat
  let x2 := f.s2.toNat
  let x3 := f.s3.toNat
  let x4 := f.s4.toNat
  let x5 := f.s5.toNat
  let x6 := f.s6.toNat
  let x7 := f.s7.toNat
  { b0 := BitVec.ofNat 8 ((x0 <<< 3 ||| x1 >>> 2) &&& 0xFF)
    b1 := BitVec.ofNat 8 ((x1 <<< 6 ||| x2 <<< 1 ||| x3 >>> 4) &&& 0xFF)
    b2 := BitVec.ofNat 8 ((x3 <<< 4 ||| x4 >>> 1) &&& 0xFF)
    b3 := BitVec.ofNat 8 ((x4 <<< 7 ||| x5 <<< 2 ||| x6 >>> 3) &&& 0xFF)
    b4 := BitVec.ofNat 8 ((x6 <<< 5 ||| x7) &&& 0xFF) }

/-- Values `8g .. 8g+7` of the zero-padded value sequence (R32, R34). -/
def fieldGroupAt (vs : List Value) (g : Nat) : FieldGroup :=
  ⟨padded vs (8 * g), padded vs (8 * g + 1), padded vs (8 * g + 2), padded vs (8 * g + 3),
   padded vs (8 * g + 4), padded vs (8 * g + 5), padded vs (8 * g + 6), padded vs (8 * g + 7)⟩

/-- The bytes DECODE forms before truncation: groups in ascending order (R32, R85). -/
def packBytes (vs : List Value) : List Byte :=
  (List.range (ceilDiv vs.length 8)).flatMap fun g => (decGroup (fieldGroupAt vs g)).toList

/-- The output length `floor(5m/8)` (R86). -/
def decodedLength (m : Nat) : Nat := 5 * m / 8

/-- DECODE's bytes or its failure: look up, pack, truncate; no test on the length and none on the discarded bits
(R81, R85, R88). -/
def decodePayload (rom : Vector (Option Value) 256) (text : List Chr) : Except Failure (List Byte) :=
  match lookupAll rom text with
  | .error f => .error f
  | .ok vs => .ok ((packBytes vs).take (decodedLength text.length))

/-- DECODE (R85). -/
def execDecode (present : Bool) (len : Nat) (payload : List Chr) (s : State) : Host.Outcome State Fault Refusal :=
  withInput present len payload s fun text => finish (decodePayload s.decRom text) s

end Sys2Proof.Machine
end

