-- ==== Sys2Proof/Machine/EncodeOp.lean ====
section
/-! DEFINITION. ENCODE: the bit-field extractor and the symbol mapper (40_encode.md). -/

namespace Sys2Proof.Machine

/-- ENC.GROUP (R62): shifts on unbounded naturals, the width imposed by the final mask (R7). -/
def encGroup (q : ByteGroup) : FieldGroup :=
  let b0 := q.b0.toNat
  let b1 := q.b1.toNat
  let b2 := q.b2.toNat
  let b3 := q.b3.toNat
  let b4 := q.b4.toNat
  { s0 := BitVec.ofNat 5 (b0 >>> 3)
    s1 := BitVec.ofNat 5 ((b0 <<< 2 ||| b1 >>> 6) &&& 0x1F)
    s2 := BitVec.ofNat 5 ((b1 >>> 1) &&& 0x1F)
    s3 := BitVec.ofNat 5 ((b1 <<< 4 ||| b2 >>> 4) &&& 0x1F)
    s4 := BitVec.ofNat 5 ((b2 <<< 1 ||| b3 >>> 7) &&& 0x1F)
    s5 := BitVec.ofNat 5 ((b3 >>> 2) &&& 0x1F)
    s6 := BitVec.ofNat 5 ((b3 <<< 3 ||| b4 >>> 5) &&& 0x1F)
    s7 := BitVec.ofNat 5 (b4 &&& 0x1F) }

/-- Bytes `5g .. 5g+4` of the zero-padded input (R32, R33). -/
def byteGroupAt (data : List Byte) (g : Nat) : ByteGroup :=
  ⟨padded data (5 * g), padded data (5 * g + 1), padded data (5 * g + 2), padded data (5 * g + 3),
   padded data (5 * g + 4)⟩

/-- The values ENCODE forms before truncation: groups in ascending order (R32, R64). -/
def extractValues (data : List Byte) : List Value :=
  (List.range (ceilDiv data.length 5)).flatMap fun g => (encGroup (byteGroupAt data g)).toList

/-- The output length `ceil(8n/5)` (R65). -/
def encodedLength (n : Nat) : Nat := ceilDiv (8 * n) 5

/-- ENCODE's text: every value mapped, then truncated (R60 steps 2 to 4, R64). -/
def encodePayload (rom : Vector Chr 32) (data : List Byte) : List Chr :=
  ((extractValues data).map (symMap rom)).take (encodedLength data.length)

/-- ENCODE (R64). -/
def execEncode (present : Bool) (len : Nat) (payload : List Byte) (s : State) : Host.Outcome State Fault Refusal :=
  withInput present len payload s fun data => returnOk (encodePayload s.encRom data) s

end Sys2Proof.Machine
end

