-- ==== Sys2Proof/Machine/Dispatch.lean ====
section
/-! DEFINITION. One arm per constructor of Instr (30_encoding.md R54). -/

namespace Sys2Proof.Machine

def exec (i : Instr) (s : State) : Host.Outcome State Fault Refusal :=
  match i with
  | .encode present len payload => Sys2Proof.Machine.execEncode present len payload s
  | .decode present len payload => Sys2Proof.Machine.execDecode present len payload s

end Sys2Proof.Machine
end

