-- ==== Sys2Proof/Machine/Step.lean ====
section
/-! DEFINITION. One step takes the host's next action (70_reset_and_hazards.md R139, R140: one atomic step from
command to response). -/

namespace Sys2Proof.Machine

/-- With no action waiting the block does nothing (log 11). A reset restores the tables and answers nothing (R135,
R136). A command is decoded and executed; a record that is no command is refused by name (log 8). -/
def step (s : State) : Host.Outcome State Fault Refusal :=
  match nextInput s with
  | none => .next s
  | some (.reset _, t) => .next (applyReset t)
  | some (.command c, t) =>
    match decodeCommand c with
    | .ok i => exec i t
    | .error e => .refused (decodeRefusal e)

/-- The same state with the command of an opcode-table word as the host's next action, so that the next step
executes it (log 1: a program is the sequence of actions the host issues). -/
def State.withFetchWord (s : State) (nbits w : Nat) : State := pushInput (.command (tableCommand nbits w)) s

end Sys2Proof.Machine
end

