-- ==== Sys2Proof/Safety.lean ====
section
/-! DEFINITION. The terms the claims use: the tables hold their constants, a response has the form of 30_encoding.md
R52, what waits is a command of R50, the answer to a command taken alone (42_codec_laws.md, opening), the words
accepted and canonical (00_scope.md glossary), and a message as a string of bits (30_encoding.md R48). -/

namespace Sys2Proof.Machine

/-- Both tables hold the constants of R15 and R18 (R22). True at reset and kept by every step. -/
abbrev TablesConstant (s : State) : Prop := s.encRom = encRomInit ∧ s.decRom = decRomInit

/-- The form of a response (R52, R55, R121): `len` counts the payload, only an OK response has one, and `bad_char` is
0 unless the status is INVALID_SYMBOL, when it is a character absent from DEC_ROM (R116). -/
def responseWellFormed (r : Response) : Bool :=
  match r.status with
  | .ok => r.len == r.payload.length && r.badChar == 0
  | .invalidArgument => r.len == 0 && r.payload.isEmpty && r.badChar == 0
  | .invalidSymbol => r.len == 0 && r.payload.isEmpty && (decRead decRomInit r.badChar).isNone

/-- The invariant of every step: constant tables, and every response given has the form of R52. -/
abbrev Inv (s : State) : Prop := TablesConstant s ∧ ∀ r ∈ s.responses, responseWellFormed r = true

/-- An action of the host that is a command of R50 or a reset. -/
def inputWellFormed : Input → Bool
  | .command c => operandsWellFormed (headerPresent c.header) c.len c.payload
  | .reset _ => true

/-- Everything the host has waiting is a command of R50 or a reset. -/
abbrev InputsWellFormed (s : State) : Prop := ∀ a ∈ s.inputs, inputWellFormed a = true

/-- The answer to a command taken alone: executed on the block right after reset. -/
def answer (i : Instr) : Option Response :=
  match exec i State.reset with
  | .next t => t.responses.getLast?
  | .fault _ => none
  | .refused _ => none

/-- `enc(x)`: the payload of `ENCODE(1, len(x), x)` (42_codec_laws.md, opening). -/
def enc (x : List Byte) : List Chr :=
  match answer (.encode true x.length x) with
  | some r => r.payload
  | none => []

/-- `dec(s)`: the payload of `DECODE(1, len(s), s)` when its status is OK (42_codec_laws.md, opening). -/
def dec (s : List Chr) : Option (List Byte) :=
  match answer (.decode true s.length s) with
  | some r => if r.status = .ok then some r.payload else none
  | none => none

/-- Accepted character: DEC_ROM maps it to a value (00_scope.md glossary, R18). -/
def acceptedChr (c : Chr) : Bool := (decRead decRomInit c).isSome

/-- A text of accepted characters (90_conflicts.md C4). -/
abbrev AcceptedText (s : List Chr) : Prop := ∀ c ∈ s, acceptedChr c = true

/-- Canonical symbol: one of the 32 characters ENCODE can emit (00_scope.md glossary). -/
def canonicalChr (c : Chr) : Bool := encRomInit.toList.contains c

/-- The three conditions of R101 on a text: canonical symbols only, a length ENCODE produces, and zeros in the
`5m mod 8` low bits of the last value. -/
def CanonicalText (s : List Chr) : Prop :=
  (∀ c ∈ s, canonicalChr c = true) ∧ s.length % 8 ∈ [0, 2, 4, 5, 7] ∧
  ∀ c v, s.getLast? = some c → decRead decRomInit c = some v → v.toNat % 2 ^ (5 * s.length % 8) = 0

/-- `a`..`z` to `A`..`Z`, every other character alone (R103). -/
def toUpper (c : Chr) : Chr := if 0x61 ≤ c ∧ c ≤ 0x7A then c - 0x20 else c

/-- `A`..`Z` to `a`..`z`, every other character alone (R103). -/
def toLower (c : Chr) : Chr := if 0x41 ≤ c ∧ c ≤ 0x5A then c + 0x20 else c

/-- Bit `i` of the bit string of a byte sequence, element 0 first, most significant bit first, followed by zeros
(R32, R48). -/
def byteBit (data : List Byte) (i : Nat) : Bool := (data.getD (i / 8) 0).getLsbD (7 - i % 8)

/-- Bit `i` of the bit string of a value sequence, element 0 first, most significant bit first, followed by zeros
(R32, R48). -/
def valueBit (vs : List Value) (i : Nat) : Bool := (vs.getD (i / 5) 0).getLsbD (4 - i % 5)

end Sys2Proof.Machine
end

