-- ==== Sys2Proof/Certificates/Slice0/Obligations.lean ====
section
/-! DEFINITION. The statements for the provers. Each docstring names the rule of spec/ it formalises, and the decision
of 92_eei_decisions.md or the log entry for a clause that is the spec's or the model's own choice. -/

open Sys2Proof Sys2Proof.Machine

/-! ## Encoding -/

/-- R50, R54 (D2): each of the four headers, with every `len` and payload a command may carry under it, decodes to
its operation. The last two clauses are the model's choice, log 9: the opcode table's words 0 and 2, which give the
header only, are read as the two null commands with `len` 0 and an empty payload. -/
def Obligations.HeadersSelectTheOperation : Prop :=
  ∀ (len : Nat) (payload : List (BitVec 8)),
    decodeCommand ⟨0b00#2, len, payload⟩ = .ok (.encode false len payload) ∧
    decodeCommand ⟨0b01#2, payload.length, payload⟩ = .ok (.encode true payload.length payload) ∧
    decodeCommand ⟨0b10#2, len, payload⟩ = .ok (.decode false len payload) ∧
    decodeCommand ⟨0b11#2, payload.length, payload⟩ = .ok (.decode true payload.length payload) ∧
    decodeTableWord 8 0b00 = some (.encode false 0 []) ∧ decodeTableWord 8 0b10 = some (.decode false 0 [])

/-- R50, R54, R55: decoding an encoded command of the spec gives it back with every operand, and every record the
decoder accepts is the encoding of exactly the command it gives, which is well-formed. -/
def Obligations.DecodingInvertsEncoding : Prop :=
  (∀ i : Instr, i.wellFormed = true → decodeCommand (encodeCommand i) = .ok i) ∧
  ∀ (c : Command) (i : Instr), decodeCommand c = .ok i → i.wellFormed = true ∧ encodeCommand i = c

/-- R50, R55, and log 8 for what is done with it: the one record that is no command is a present input whose payload
has not `len` elements; the decoder, the step and both meanings refuse it by name. -/
def Obligations.OnlyALengthMismatchIsRefused : Prop :=
  (∀ c : Command, (∃ e, decodeCommand c = .error e) ↔ (c.header.getLsbD 0 = true ∧ c.len ≠ c.payload.length)) ∧
  (∀ (s : State) (c : Command) (rest : List Input), s.inputs = .command c :: rest →
    c.header.getLsbD 0 = true → c.len ≠ c.payload.length → step s = .refused .lengthMismatch) ∧
  ∀ (i : Instr) (s : State), i.wellFormed = false → exec i s = .refused .lengthMismatch

/-- R139, R140: when the next action of the host is a command that decodes to `i`, the step is `exec i` on the state
with that action taken. Log 11: with no action waiting, the step changes nothing. -/
def Obligations.StepRunsTheDecodedCommand : Prop :=
  (∀ (s : State) (c : Command) (rest : List Input) (i : Instr), s.inputs = .command c :: rest →
    decodeCommand c = .ok i → step s = exec i { s with inputs := rest }) ∧
  ∀ s : State, s.inputs = [] → step s = .next s

/-! ## Tables and reset -/

/-- R15, R22, R135: reset leaves ENC_ROM with the string of R15 (its characters at the code points of G1, log 14) and
DEC_ROM with the rows of R18's map, absent from 0x80 on. Log 1, log 2: the model's own two lists are empty. -/
def Obligations.ResetLeavesTheConstantTables : Prop :=
  State.reset.encRom.toList = "0123456789ABCDEFGHJKMNPQRSTVWXYZ".toList.map (fun ch => BitVec.ofNat 8 ch.toNat) ∧
  (∀ c : Chr, decRead State.reset.decRom c =
    if 0x30 ≤ c ∧ c ≤ 0x39 then some (BitVec.ofNat 5 (c.toNat - 0x30))
    else ([(0x41, 10), (0x42, 11), (0x43, 12), (0x44, 13), (0x45, 14), (0x46, 15), (0x47, 16), (0x48, 17), (0x49, 1),
      (0x4A, 18), (0x4B, 19), (0x4C, 1), (0x4D, 20), (0x4E, 21), (0x4F, 0), (0x50, 22), (0x51, 23), (0x52, 24),
      (0x53, 25), (0x54, 26), (0x56, 27), (0x57, 28), (0x58, 29), (0x59, 30), (0x5A, 31)] : List (Nat × Value)).lookup
        (if 0x61 ≤ c ∧ c ≤ 0x7A then c.toNat - 0x20 else if 0x41 ≤ c ∧ c ≤ 0x5A then c.toNat else 0)) ∧
  State.reset.inputs = [] ∧ State.reset.responses = []

/-- R17 (entry format D7, lower case G2) and R19 (D21): DEC_ROM maps a character to a value exactly in the four cases
of R17, `U` and `u` are absent, and the hardware form of an entry is `valid` above the value, all zero when absent. -/
def Obligations.DecRomHasTheFourCases : Prop :=
  (∀ (c : Chr) (v : Value), decRead decRomInit c = some v ↔
    (c = encRead encRomInit v ∨ (10 ≤ v.toNat ∧ c = encRead encRomInit v + 0x20) ∨
     (v = 0 ∧ (c = 0x4F ∨ c = 0x6F)) ∨ (v = 1 ∧ (c = 0x49 ∨ c = 0x69 ∨ c = 0x4C ∨ c = 0x6C)))) ∧
  decRead decRomInit 0x55 = none ∧ decRead decRomInit 0x75 = none ∧
  ∀ c : Chr, decEntryBits (decRead decRomInit c) =
    match decRead decRomInit c with
    | some v => 1#1 ++ v
    | none => 0

/-- R18, R93: the absent characters are exactly the ranges R18 lists, and 60 characters are accepted. -/
def Obligations.SixtyCharactersAreAccepted : Prop :=
  (∀ c : Chr, acceptedChr c = false ↔
    (c ≤ 0x2F ∨ (0x3A ≤ c ∧ c ≤ 0x40) ∨ c = 0x55 ∨ (0x5B ≤ c ∧ c ≤ 0x60) ∨ c = 0x75 ∨ 0x7B ≤ c)) ∧
  ((List.range 256).filter fun n => acceptedChr (BitVec.ofNat 8 n)).length = 60

/-- R20 (a) to (d): the invariants of the two tables. -/
def Obligations.TablesAgreeWithEachOther : Prop :=
  (∀ v : Value, decRead decRomInit (encRead encRomInit v) = some v) ∧
  (∀ (c : Chr) (v : Value), decRead decRomInit c = some v →
    canonicalChr (encRead encRomInit v) = true ∧ (encRead encRomInit v = c ↔ canonicalChr c = true)) ∧
  (∀ v : Value, ((List.range 256).filter fun n => decRead decRomInit (BitVec.ofNat 8 n) == some v).length =
    if v = 0 then 3 else if v = 1 then 5 else if v.toNat < 10 then 1 else 2) ∧
  ∀ c : Chr, decRead decRomInit (toUpper c) = decRead decRomInit c ∧
    decRead decRomInit (toLower c) = decRead decRomInit c

/-- R135, R136 (D13, log 10): a reset, with an operation in progress or not, puts both tables back to their constants
from any state, gives no response, keeps those given before, and is itself taken. -/
def Obligations.ResetAnswersNothing : Prop :=
  ∀ (s : State) (p : Option Command) (rest : List Input), s.inputs = .reset p :: rest →
    step s = .next { encRom := encRomInit, decRom := decRomInit, inputs := rest, responses := s.responses }

/-! ## The extractor and the packer -/

/-- R46: which byte bits land in which field bits, for all 2^40 groups. -/
def Obligations.ExtractorFieldBits : Prop :=
  ∀ q : ByteGroup,
    (encGroup q).s0 = q.b0.extractLsb' 3 5 ∧
    (encGroup q).s1 = q.b0.extractLsb' 0 3 ++ q.b1.extractLsb' 6 2 ∧
    (encGroup q).s2 = q.b1.extractLsb' 1 5 ∧
    (encGroup q).s3 = q.b1.extractLsb' 0 1 ++ q.b2.extractLsb' 4 4 ∧
    (encGroup q).s4 = q.b2.extractLsb' 0 4 ++ q.b3.extractLsb' 7 1 ∧
    (encGroup q).s5 = q.b3.extractLsb' 2 5 ∧
    (encGroup q).s6 = q.b3.extractLsb' 0 2 ++ q.b4.extractLsb' 5 3 ∧
    (encGroup q).s7 = q.b4.extractLsb' 0 5

/-- R47: which field bits land in which byte bits, for all 2^40 groups, and that the packer and the extractor are
exact inverses. -/
def Obligations.PackerByteBits : Prop :=
  (∀ f : FieldGroup,
    (decGroup f).b0 = f.s0 ++ f.s1.extractLsb' 2 3 ∧
    (decGroup f).b1 = f.s1.extractLsb' 0 2 ++ f.s2 ++ f.s3.extractLsb' 4 1 ∧
    (decGroup f).b2 = f.s3.extractLsb' 0 4 ++ f.s4.extractLsb' 1 4 ∧
    (decGroup f).b3 = f.s4.extractLsb' 0 1 ++ f.s5 ++ f.s6.extractLsb' 3 2 ∧
    (decGroup f).b4 = f.s6.extractLsb' 0 3 ++ f.s7) ∧
  (∀ q : ByteGroup, decGroup (encGroup q) = q) ∧ ∀ f : FieldGroup, encGroup (decGroup f) = f

/-- R30, R31, R45: the extractor and the packer keep the 40-bit string of a group; `b0` is its bits 39:32 and `s0` its
bits 39:35, and so on down. -/
def Obligations.GroupViewsShareFortyBits : Prop :=
  (∀ q : ByteGroup, (encGroup q).bits = q.bits) ∧ (∀ f : FieldGroup, (decGroup f).bits = f.bits) ∧
  (∀ q : ByteGroup, q.bits.extractLsb' 32 8 = q.b0 ∧ q.bits.extractLsb' 24 8 = q.b1 ∧
    q.bits.extractLsb' 16 8 = q.b2 ∧ q.bits.extractLsb' 8 8 = q.b3 ∧ q.bits.extractLsb' 0 8 = q.b4) ∧
  ∀ f : FieldGroup, f.bits.extractLsb' 35 5 = f.s0 ∧ f.bits.extractLsb' 30 5 = f.s1 ∧
    f.bits.extractLsb' 25 5 = f.s2 ∧ f.bits.extractLsb' 20 5 = f.s3 ∧ f.bits.extractLsb' 15 5 = f.s4 ∧
    f.bits.extractLsb' 10 5 = f.s5 ∧ f.bits.extractLsb' 5 5 = f.s6 ∧ f.bits.extractLsb' 0 5 = f.s7

/-! ## What the two instructions do -/

/-- R32, R48, R64, R65: on a present input of any length ENCODE completes; its response is OK with the
`ceil(8n/5)` values whose bit string is that of the input bytes followed by zeros, each through ENC_ROM; nothing else
changes. -/
def Obligations.EncodeAnswersTheBitString : Prop :=
  ∀ (s : State) (data : List Byte), s.encRom = encRomInit →
    ∃ vs : List Value, vs.length = (8 * data.length + 4) / 5 ∧
      (∀ i, i < 5 * vs.length → valueBit vs i = byteBit data i) ∧
      exec (.encode true data.length data) s = .next { s with
        responses := s.responses ++ [⟨.ok, vs.length, vs.map (encRead encRomInit), 0⟩] }

/-- R32, R48, R85, R86: on a present text of accepted characters DECODE completes; its response is OK with the
`floor(5m/8)` bytes whose bit string is that of the looked-up values; nothing else changes. -/
def Obligations.DecodeAnswersTheBitString : Prop :=
  ∀ (s : State) (text : List Chr) (vs : List Value), s.decRom = decRomInit →
    text.map (decRead decRomInit) = vs.map some →
    ∃ data : List Byte, data.length = 5 * text.length / 8 ∧
      (∀ i, i < 8 * data.length → byteBit data i = valueBit vs i) ∧
      exec (.decode true text.length text) s = .next { s with
        responses := s.responses ++ [⟨.ok, data.length, data, 0⟩] }

/-- R84, R116, R119, R121 (D9: the lowest index is the spec's choice, log 6; D17): a present text with an absent
character after accepted ones is answered INVALID_SYMBOL with that character, no payload, whatever follows it; nothing
else changes. -/
def Obligations.DecodeReportsTheFirstAbsentCharacter : Prop :=
  ∀ (s : State) (before : List Chr) (c : Chr) (after : List Chr), s.decRom = decRomInit →
    AcceptedText before → acceptedChr c = false →
    exec (.decode true (before ++ c :: after).length (before ++ c :: after)) s =
      .next { s with responses := s.responses ++ [⟨.invalidSymbol, 0, [], c⟩] }

/-- R51 (D5), R115, R119: a null input of either operation is answered INVALID_ARGUMENT whatever `len` and `payload`
hold; the empty input is another thing and is answered OK with an empty payload. -/
def Obligations.NullInputIsAnInvalidArgument : Prop :=
  ∀ (s : State) (len : Nat) (payload : List (BitVec 8)),
    exec (.encode false len payload) s =
      .next { s with responses := s.responses ++ [⟨.invalidArgument, 0, [], 0⟩] } ∧
    exec (.decode false len payload) s =
      .next { s with responses := s.responses ++ [⟨.invalidArgument, 0, [], 0⟩] } ∧
    exec (.encode true 0 []) s = .next { s with responses := s.responses ++ [⟨.ok, 0, [], 0⟩] } ∧
    exec (.decode true 0 []) s = .next { s with responses := s.responses ++ [⟨.ok, 0, [], 0⟩] }

/-- R38, R52, R55, R107, R117, R121: on every state, whatever its tables hold, every command of the spec completes
with exactly one response more and nothing else changed; only an OK response has a payload and `len` counts it;
`bad_char` is 0 unless the status is INVALID_SYMBOL; ENCODE of a present input is OK; the status codes are 0, 1, 2. -/
def Obligations.EveryCommandGetsExactlyOneResponse : Prop :=
  (∀ (i : Instr) (s : State), i.wellFormed = true →
    ∃ r : Response, exec i s = .next { s with responses := s.responses ++ [r] } ∧
      r.len = r.payload.length ∧ (r.status ≠ .ok → r.payload = []) ∧ (r.status ≠ .invalidSymbol → r.badChar = 0) ∧
      (∀ len payload, i = .encode true len payload → r.status = .ok) ∧
      (r.status = .invalidArgument ↔ ((∃ len payload, i = .encode false len payload) ∨
        ∃ len payload, i = .decode false len payload))) ∧
  statusCode .ok = 0 ∧ statusCode .invalidArgument = 1 ∧ statusCode .invalidSymbol = 2

/-- R41, R108: the response to a command is the one it gets alone, on every state with the constant tables, whatever
was done before and whatever waits. -/
def Obligations.ResponseDependsOnTheCommandOnly : Prop :=
  ∀ i : Instr, i.wellFormed = true →
    ∃ r : Response, answer i = some r ∧ ∀ s : State, TablesConstant s →
      exec i s = .next { s with responses := s.responses ++ [r] }

/-- R120, R122 (D15): a failed operation leaves nothing behind; on every state, the command after it is answered as
if the failed one had never been issued. -/
def Obligations.FailureLeavesNothingBehind : Prop :=
  ∀ (f i : Instr) (s t : State), exec f s = .next t →
    (∃ r, t.responses = s.responses ++ [r] ∧ r.status ≠ .ok) → i.wellFormed = true →
    ∃ r' : Response, exec i s = .next { s with responses := s.responses ++ [r'] } ∧
      exec i t = .next { s with responses := t.responses ++ [r'] }

/-! ## The machine as a whole -/

/-- R13, R22, R43, R52, R116: the tables are never written and every response given has the form of R52, with an
absent character in `bad_char` after INVALID_SYMBOL; every step keeps both, from any state that has both. -/
def Obligations.StepKeepsTablesAndResponseForm : Prop :=
  ∀ s t : State, Inv s → step s = .next t → Inv t

/-- R22, R135: the invariant of `StepKeepsTablesAndResponseForm` holds right after reset. -/
def Obligations.ResetMeetsTheInvariant : Prop := Inv State.reset

/-- R41, R52, R108, R139 (D14: one command at a time, answered in order): any sequence of commands, from any state
with the constant tables, is answered in the order it was issued, one response each, each the one it gets alone. -/
def Obligations.RunAnswersEveryCommandInOrder : Prop :=
  ∀ (s : State) (cmds : List Instr) (rest : List Input), TablesConstant s →
    (∀ i ∈ cmds, i.wellFormed = true) →
    s.inputs = cmds.map (fun i => .command (encodeCommand i)) ++ rest →
    ∃ rs : List Response, cmds.map answer = rs.map some ∧
      Sys2Proof.core.run cmds.length s = .next { s with inputs := rest, responses := s.responses ++ rs }

/-- R107, R117, R125, R137, and two choices of the model: from any state whose waiting inputs are commands of the spec
and resets (resets as inputs: log 10), a step answers a state whose waiting inputs are again such; with none waiting it
is the idle step of log 11. -/
def Obligations.StepNeverStopsOnCommands : Prop :=
  ∀ s : State, InputsWellFormed s → ∃ t : State, step s = .next t ∧ InputsWellFormed t

/-- R107, R117, R125, R137, and two choices of the model: from any state whose waiting inputs are commands of the spec
and resets (resets as inputs: log 10), no run ever stops, however long; once the inputs are used up it goes on by the
idle step of log 11. It is `StepNeverStopsOnCommands` over runs. -/
def Obligations.NoRunOfCommandsStops : Prop :=
  ∀ (s : State) (k : Nat), InputsWellFormed s → ∃ t : State, Sys2Proof.core.run k s = .next t ∧ InputsWellFormed t

/-! ## The laws of 42_codec_laws.md, and the properties of 40_encode.md and 41_decode.md -/

/-- R100: from any state with the constant tables, the step that takes `ENCODE x` answers a text, and the step that
takes `DECODE` of that text answers OK with the bytes `x`, for every byte sequence `x`. -/
def Obligations.DecodeOfEncodeIsTheInput : Prop :=
  ∀ (s : State) (x : List Byte) (rest : List Input), TablesConstant s →
    s.inputs = .command (encodeCommand (.encode true x.length x)) :: rest →
    ∃ (text : List Chr) (t : State),
      step s = .next t ∧ t.responses = s.responses ++ [⟨.ok, text.length, text, 0⟩] ∧
      ∀ rest', step { t with inputs := .command (encodeCommand (.decode true text.length text)) :: rest' } =
        .next { t with inputs := rest', responses := t.responses ++ [⟨.ok, x.length, x, 0⟩] }

/-- R101 (derived there from R88 to R100): an accepted text is the encoding of its decoding exactly when it meets the
three conditions; and decoding the encoding of a decoding gives the same bytes. -/
def Obligations.EncodeOfDecodeIsTheTextIffCanonical : Prop :=
  ∀ s : List Chr, AcceptedText s → ∃ d : List Byte, dec s = some d ∧
    (enc d = s ↔ CanonicalText s) ∧ dec (enc d) = some d

/-- R102: the length laws, in both directions. -/
def Obligations.LengthLaws : Prop :=
  (∀ x : List Byte, (enc x).length = (8 * x.length + 4) / 5) ∧
  (∀ s : List Chr, AcceptedText s → ∃ d, dec s = some d ∧ d.length = 5 * s.length / 8) ∧
  (∀ n : Nat, 5 * ((8 * n + 4) / 5) / 8 = n) ∧
  ∀ m : Nat, (8 * (5 * m / 8) + 4) / 5 ≤ m ∧
    ((8 * (5 * m / 8) + 4) / 5 = m ↔ m % 8 ∈ [0, 2, 4, 5, 7])

/-- R65: of the `8 * ceil(n/5)` values ENCODE forms, the `ceil(8n/5)` kept ones each hold an input bit, all are kept
exactly when `n` is a multiple of 5, and each dropped one is 0. -/
def Obligations.TruncationDropsOnlyPadding : Prop :=
  ∀ data : List Byte,
    (extractValues data).length = 8 * ((data.length + 4) / 5) ∧
    enc data = ((extractValues data).take ((8 * data.length + 4) / 5)).map (encRead encRomInit) ∧
    (8 * data.length + 4) / 5 ≤ 8 * ((data.length + 4) / 5) ∧
    ((8 * data.length + 4) / 5 = 8 * ((data.length + 4) / 5) ↔ data.length % 5 = 0) ∧
    (∀ k, k < (8 * data.length + 4) / 5 → 5 * k < 8 * data.length) ∧
    ∀ v ∈ (extractValues data).drop ((8 * data.length + 4) / 5), v = 0

/-- R67 (derived there): the value of the last symbol is a multiple of 4, 16, 2, 8 for `n mod 5` = 1, 2, 3, 4. -/
def Obligations.LastSymbolEndsInPaddingZeros : Prop :=
  ∀ data : List Byte, data ≠ [] → ∃ v : Value,
    (enc data).getLast? = some (encRead encRomInit v) ∧
    (data.length % 5 = 1 → v.toNat % 4 = 0) ∧ (data.length % 5 = 2 → v.toNat % 16 = 0) ∧
    (data.length % 5 = 3 → v.toNat % 2 = 0) ∧ (data.length % 5 = 4 → v.toNat % 8 = 0)

/-- R68 (derived there): the encoding of a prefix whose length is a multiple of 5 is a prefix of the encoding; without
that condition all its symbols but the last are. -/
def Obligations.EncodePrefixLaw : Prop :=
  ∀ x y : List Byte, (enc x).dropLast <+: enc (x ++ y) ∧ (x.length % 5 = 0 → enc x <+: enc (x ++ y))

/-- R110 (derived there): the decoding of a prefix of an accepted text is a prefix of its decoding. -/
def Obligations.DecodePrefixLaw : Prop :=
  ∀ s u : List Chr, AcceptedText (s ++ u) →
    ∃ d e : List Byte, dec s = some d ∧ dec (s ++ u) = some e ∧ d <+: e

/-- R103 (which absent character is reported: D9, log 6): an accepted text, its upper-case form and its lower-case
form decode alike; a text with an absent character fails in each form, reporting that form's first absent one. -/
def Obligations.CaseDoesNotMatter : Prop :=
  (∀ s : List Chr, AcceptedText s →
    ∃ d, dec s = some d ∧ dec (s.map toUpper) = some d ∧ dec (s.map toLower) = some d) ∧
  ∀ (before : List Chr) (c : Chr) (after s : List Chr), s = before ++ c :: after →
    AcceptedText before → acceptedChr c = false →
    answer (.decode true s.length s) = some ⟨.invalidSymbol, 0, [], c⟩ ∧
    answer (.decode true s.length (s.map toUpper)) = some ⟨.invalidSymbol, 0, [], toUpper c⟩

/-- R90, R104: replacing characters of an accepted text by others with the same DEC_ROM value does not change the
result; `O o 0` are interchangeable, so are `I i L l 1`, alone and inside any accepted text. -/
def Obligations.AliasesDoNotMatter : Prop :=
  (∀ s u : List Chr, AcceptedText s → s.map (decRead decRomInit) = u.map (decRead decRomInit) →
    ∃ d, dec s = some d ∧ dec u = some d) ∧
  (∀ (before after : List Chr) (a b : Chr), AcceptedText (before ++ after) →
    ((a ∈ [0x4F#8, 0x6F#8, 0x30#8] ∧ b ∈ [0x4F#8, 0x6F#8, 0x30#8]) ∨
     (a ∈ [0x49#8, 0x69#8, 0x4C#8, 0x6C#8, 0x31#8] ∧ b ∈ [0x49#8, 0x69#8, 0x4C#8, 0x6C#8, 0x31#8])) →
    ∃ d, dec (before ++ a :: after) = some d ∧ dec (before ++ b :: after) = some d) ∧
  dec [0x4F, 0x30] = some [0x00] ∧ dec [0x49, 0x4C] = some [0x08]

/-- R105 (which absent character is reported: D9, log 6): DECODE of a present text is OK exactly when every character
is accepted; otherwise it is INVALID_SYMBOL with the first absent character; `@` fails. -/
def Obligations.DecodeIsOkIffEveryCharacterIsAccepted : Prop :=
  (∀ s : List Chr, (∃ d, dec s = some d) ↔ AcceptedText s) ∧
  (∀ s : List Chr, ¬ AcceptedText s → ∃ c, s.find? (fun a => !acceptedChr a) = some c ∧
    answer (.decode true s.length s) = some ⟨.invalidSymbol, 0, [], c⟩) ∧
  answer (.decode true 1 [0x40]) = some ⟨.invalidSymbol, 0, [], 0x40⟩

/-- R66, R87, R106, and R81 (D20, 90_conflicts.md C1): the empty input of either operation and a single accepted
character give the empty output; a single absent character fails. -/
def Obligations.EmptyAndSingleInputs : Prop :=
  answer (.encode true 0 []) = some ⟨.ok, 0, [], 0⟩ ∧ answer (.decode true 0 []) = some ⟨.ok, 0, [], 0⟩ ∧
  ∀ c : Chr, answer (.decode true 1 [c]) =
    some (if acceptedChr c = true then ⟨.ok, 0, [], 0⟩ else ⟨.invalidSymbol, 0, [], c⟩)

/-- R109: every character ENCODE emits is one of the 32 canonical symbols; none is `I`, `L`, `O`, `U`, a lowercase
letter, or the padding character `=`. -/
def Obligations.EncodeEmitsCanonicalSymbolsOnly : Prop :=
  ∀ x : List Byte, ∀ c ∈ enc x, canonicalChr c = true ∧ c ∉ [0x49#8, 0x4C#8, 0x4F#8, 0x55#8, 0x3D#8] ∧
    ¬ (0x61 ≤ c ∧ c ≤ 0x7A)

/-- R69, R111 (derived there): ENCODE is injective, DECODE reaches every byte sequence, and every byte sequence has
exactly one canonical text in the sense of R101, its encoding. -/
def Obligations.EveryByteSequenceHasOneCanonicalText : Prop :=
  (∀ x y : List Byte, enc x = enc y → x = y) ∧
  ∀ x : List Byte, AcceptedText (enc x) ∧ CanonicalText (enc x) ∧ dec (enc x) = some x ∧
    ∀ s : List Chr, CanonicalText s → dec s = some x → s = enc x

/-- R88: the `5m mod 8` low-order input bits are not examined: two accepted texts of one length whose values agree on
the first `8 * floor(5m/8)` bits decode alike; `CZ` and `CW` both give 67, `CR` and `CS` both 66. -/
def Obligations.DiscardedBitsAreNotExamined : Prop :=
  (∀ (s u : List Chr) (vs ws : List Value), s.length = u.length →
    s.map (decRead decRomInit) = vs.map some → u.map (decRead decRomInit) = ws.map some →
    (∀ i, i < 8 * (5 * s.length / 8) → valueBit vs i = valueBit ws i) →
    ∃ d, dec s = some d ∧ dec u = some d) ∧
  dec [0x43, 0x5A] = some [0x67] ∧ dec [0x43, 0x57] = some [0x67] ∧
  dec [0x43, 0x52] = some [0x66] ∧ dec [0x43, 0x53] = some [0x66]

/-- R89 (derived there): a text whose length is 1, 3 or 6 modulo 8 is accepted, and its last character, though looked
up, contributes nothing. -/
def Obligations.LengthsEncodeNeverProducesAreAccepted : Prop :=
  ∀ (s : List Chr) (c : Chr), AcceptedText s → (s.length + 1) % 8 ∈ [1, 3, 6] →
    (acceptedChr c = true → ∃ d, dec s = some d ∧ dec (s ++ [c]) = some d) ∧
    (acceptedChr c = false → answer (.decode true (s ++ [c]).length (s ++ [c])) = some ⟨.invalidSymbol, 0, [], c⟩)

/-- R92: nothing is skipped or trimmed: a text that holds a space, tab, line feed, vertical tab, form feed, carriage
return, hyphen, `=` or NUL anywhere (usual code points, log 14), or a byte of the UTF-8 byte-order mark (the model's
reading of R92's byte-order mark, log 14), fails with INVALID_SYMBOL. -/
def Obligations.NothingIsSkippedOrTrimmed : Prop :=
  ∀ (s : List Chr) (c : Chr), c ∈ s →
    c ∈ [0x20#8, 0x09#8, 0x0A#8, 0x0B#8, 0x0C#8, 0x0D#8, 0x2D#8, 0x3D#8, 0x00#8, 0xEF#8, 0xBB#8, 0xBF#8] →
    ∃ r, answer (.decode true s.length s) = some r ∧ r.status = .invalidSymbol ∧ r.len = 0 ∧ r.payload = [] ∧
      r.badChar ∈ s ∧ acceptedChr r.badChar = false

/-- R91 (derived there): DECODE is not injective: texts that differ in case, in an alias, in discarded low bits or in a
wholly discarded last character give the same bytes. -/
def Obligations.DecodeIsNotInjective : Prop :=
  dec [0x63, 0x72] = dec [0x43, 0x52] ∧ dec [0x6F, 0x4F] = dec [0x30, 0x30] ∧
  dec [0x43, 0x5A] = dec [0x43, 0x57] ∧ dec [0x43, 0x52, 0x30] = dec [0x43, 0x52] ∧ dec [0x43, 0x52] = some [0x66]
end

