-- ==== Sys2Proof/Laws/Codec.lean ====
section
/-! SUPPORT. One lemma per codec function: the bits a group operation keeps, the length and the bits of the whole
untruncated sequences, and when the lookup phase succeeds or fails. -/

namespace Sys2Proof.Machine

/-! ## Bits of numbers, as the formulas of R62 and R83 need them -/

theorem ofNat_getElem (w x i : Nat) (h : i < w) : (BitVec.ofNat w x)[i] = x.testBit i := by
  simp [BitVec.getElem_eq_testBit_toNat, Nat.testBit_mod_two_pow, h]

theorem toNat_testBit {w : Nat} (b : BitVec w) (k : Nat) : b.toNat.testBit k = b.getLsbD k := rfl

theorem toNat_odd {w : Nat} (b : BitVec w) : decide (b.toNat % 2 = 1) = b.getLsbD 0 := by
  rw [← toNat_testBit, Nat.testBit_zero]

theorem mask5_testBit (k : Nat) : Nat.testBit 31 k = decide (k < 5) := Nat.testBit_two_pow_sub_one 5 k

theorem mask8_testBit (k : Nat) : Nat.testBit 255 k = decide (k < 8) := Nat.testBit_two_pow_sub_one 8 k

/-! ## One group -/

/-- ENC.GROUP keeps every bit of the group in its place. -/
theorem encGroup_bit (q : ByteGroup) (i : Nat) (h : i < 40) :
    valueBit (encGroup q).toList i = byteBit q.toList i := by
  interval_cases i <;>
    simp [valueBit, byteBit, encGroup, FieldGroup.toList, ByteGroup.toList, ofNat_getElem, toNat_testBit,
      mask5_testBit, toNat_odd]

/-- DEC.GROUP keeps every bit of the group in its place. -/
theorem decGroup_bit (f : FieldGroup) (i : Nat) (h : i < 40) :
    byteBit (decGroup f).toList i = valueBit f.toList i := by
  interval_cases i <;>
    simp [valueBit, byteBit, decGroup, FieldGroup.toList, ByteGroup.toList, ofNat_getElem, toNat_testBit,
      mask8_testBit, toNat_odd]

@[simp] theorem fieldGroup_toList_length (f : FieldGroup) : f.toList.length = 8 := rfl

@[simp] theorem byteGroup_toList_length (q : ByteGroup) : q.toList.length = 5 := rfl

/-- Byte `j` of group `g` is byte `5g + j` of the padded input. -/
theorem byteGroupAt_getD (data : List Byte) (g j : Nat) (h : j < 5) :
    (byteGroupAt data g).toList.getD j 0 = data.getD (5 * g + j) 0 := by
  interval_cases j <;> rfl

/-- Value `j` of group `g` is value `8g + j` of the padded sequence. -/
theorem fieldGroupAt_getD (vs : List Value) (g j : Nat) (h : j < 8) :
    (fieldGroupAt vs g).toList.getD j 0 = vs.getD (8 * g + j) 0 := by
  interval_cases j <;> rfl

/-! ## Groups in sequence -/

/-- The length of blocks of one size in sequence. -/
theorem flatMap_blocks_length {α : Type} (block : Nat → List α) (k n : Nat) (size : ∀ g, (block g).length = k) :
    ((List.range n).flatMap block).length = k * n := by
  simp [List.length_flatMap, size, Nat.mul_comm]

/-- Element `i` of blocks of one size in sequence. -/
theorem flatMap_blocks_getD {α : Type} (block : Nat → List α) (k n : Nat) (d : α) (size : ∀ g, (block g).length = k)
    (i : Nat) (h : i < k * n) : ((List.range n).flatMap block).getD i d = (block (i / k)).getD (i % k) d := by
  induction n with
  | zero => omega
  | succ n ih =>
    have len := flatMap_blocks_length block k n size
    rw [List.range_succ, List.flatMap_append]
    by_cases hi : i < k * n
    · rw [List.getD_append _ _ _ _ (by omega), ih hi]
    · have hk : i - k * n < k := by rw [Nat.mul_succ] at h; omega
      have hdiv : i / k = n := by
        rw [Nat.div_eq_of_lt_le] <;> rw [Nat.mul_comm] <;> omega
      have hmod : i % k = i - k * n := by
        have := Nat.div_add_mod i k
        rw [hdiv] at this
        omega
      rw [List.getD_append_right _ _ _ _ (by omega), len, hdiv, hmod]
      simp

/-- ENCODE forms eight values per group (R36). -/
theorem extractValues_length (data : List Byte) : (extractValues data).length = 8 * ((data.length + 4) / 5) :=
  flatMap_blocks_length _ 8 _ fun _ => rfl

/-- DECODE forms five bytes per group (R36). -/
theorem packBytes_length (vs : List Value) : (packBytes vs).length = 5 * ((vs.length + 7) / 8) :=
  flatMap_blocks_length _ 5 _ fun _ => rfl

/-- The bit string of the values ENCODE forms is that of the input followed by zeros (R32, R48). -/
theorem extractValues_bit (data : List Byte) (i : Nat) : valueBit (extractValues data) i = byteBit data i := by
  by_cases h : i / 5 < 8 * ((data.length + 4) / 5)
  · have group : valueBit (extractValues data) i = valueBit (encGroup (byteGroupAt data (i / 40))).toList (i % 40) := by
      have block := flatMap_blocks_getD (fun g => (encGroup (byteGroupAt data g)).toList) 8
        ((data.length + 4) / 5) 0 (fun _ => rfl) _ h
      simp only [valueBit]
      rw [show extractValues data = (List.range ((data.length + 4) / 5)).flatMap
        (fun g => (encGroup (byteGroupAt data g)).toList) from rfl, block]
      congr 2 <;> first | omega | (congr 3; omega)
    rw [group, encGroup_bit _ _ (by omega)]
    simp only [byteBit]
    rw [byteGroupAt_getD _ _ _ (by omega)]
    congr 2 <;> omega
  · have beyond : (extractValues data).length ≤ i / 5 := by rw [extractValues_length]; omega
    simp only [valueBit, byteBit]
    rw [List.getD_eq_default _ _ beyond, List.getD_eq_default _ _ (by omega)]
    simp

/-- The bit string of the bytes DECODE forms is that of the values followed by zeros (R32, R48). -/
theorem packBytes_bit (vs : List Value) (i : Nat) : byteBit (packBytes vs) i = valueBit vs i := by
  by_cases h : i / 8 < 5 * ((vs.length + 7) / 8)
  · have group : byteBit (packBytes vs) i = byteBit (decGroup (fieldGroupAt vs (i / 40))).toList (i % 40) := by
      have block := flatMap_blocks_getD (fun g => (decGroup (fieldGroupAt vs g)).toList) 5
        ((vs.length + 7) / 8) 0 (fun _ => rfl) _ h
      simp only [byteBit]
      rw [show packBytes vs = (List.range ((vs.length + 7) / 8)).flatMap
        (fun g => (decGroup (fieldGroupAt vs g)).toList) from rfl, block]
      congr 2 <;> first | omega | (congr 3; omega)
    rw [group, decGroup_bit _ _ (by omega)]
    simp only [valueBit]
    rw [fieldGroupAt_getD _ _ _ (by omega)]
    congr 2 <;> omega
  · have beyond : (packBytes vs).length ≤ i / 8 := by rw [packBytes_length]; omega
    simp only [valueBit, byteBit]
    rw [List.getD_eq_default _ _ beyond, List.getD_eq_default _ _ (by omega)]
    simp

/-! ## Bit strings -/

/-- Truncation keeps the bits of the kept bytes. -/
theorem byteBit_take (data : List Byte) (k i : Nat) (h : i < 8 * k) : byteBit (data.take k) i = byteBit data i := by
  have hk : i / 8 < k := by omega
  simp [byteBit, List.getD_eq_getElem?_getD, hk]

/-- Truncation keeps the bits of the kept values. -/
theorem valueBit_take (vs : List Value) (k i : Nat) (h : i < 5 * k) : valueBit (vs.take k) i = valueBit vs i := by
  have hk : i / 5 < k := by omega
  simp [valueBit, List.getD_eq_getElem?_getD, hk]

/-- A byte sequence is determined by its length and its bits. -/
theorem bytes_ext {x y : List Byte} (len : x.length = y.length)
    (bits : ∀ i, i < 8 * x.length → byteBit x i = byteBit y i) : x = y := by
  apply List.ext_getElem len
  intro k hx hy
  apply BitVec.eq_of_getLsbD_eq
  intro j hj
  have h := bits (8 * k + (7 - j)) (by omega)
  simp only [byteBit] at h
  rw [show (8 * k + (7 - j)) / 8 = k by omega, show 7 - (8 * k + (7 - j)) % 8 = j by omega] at h
  simpa [List.getD_eq_getElem?_getD, hx, hy] using h

/-- A value sequence is determined by its length and its bits. -/
theorem values_ext {x y : List Value} (len : x.length = y.length)
    (bits : ∀ i, i < 5 * x.length → valueBit x i = valueBit y i) : x = y := by
  apply List.ext_getElem len
  intro k hx hy
  apply BitVec.eq_of_getLsbD_eq
  intro j hj
  have h := bits (5 * k + (4 - j)) (by omega)
  simp only [valueBit] at h
  rw [show (5 * k + (4 - j)) / 5 = k by omega, show 4 - (5 * k + (4 - j)) % 5 = j by omega] at h
  simpa [List.getD_eq_getElem?_getD, hx, hy] using h

/-! ## The lookup phase -/

/-- CHR.LOOKUP gives a value exactly when the table has one (R82). -/
theorem chrLookup_eq_ok {rom : Vector (Option Value) 256} {c : Chr} {v : Value} :
    chrLookup rom c = .ok v ↔ decRead rom c = some v := by
  cases h : decRead rom c <;> simp [chrLookup, h]

/-- CHR.LOOKUP fails, naming its character, exactly when the table has no value (R82). -/
theorem chrLookup_eq_error {rom : Vector (Option Value) 256} {c : Chr} {f : Failure} :
    chrLookup rom c = .error f ↔ decRead rom c = none ∧ f = .invalidSymbol c := by
  cases h : decRead rom c <;> simp [chrLookup, h, eq_comm]

/-- The lookup phase succeeds exactly when every character has a value, and gives those values in order (R84). -/
theorem lookupAll_eq_ok {rom : Vector (Option Value) 256} {text : List Chr} {vs : List Value} :
    lookupAll rom text = .ok vs ↔ text.map (decRead rom) = vs.map some := by
  induction text generalizing vs with
  | nil => cases vs <;> simp [lookupAll]
  | cons c rest ih =>
    cases hc : chrLookup rom c with
    | error f =>
      have absent := (chrLookup_eq_error.mp hc).1
      cases vs <;> simp [lookupAll, hc, absent]
    | ok v =>
      have present := chrLookup_eq_ok.mp hc
      cases hr : lookupAll rom rest with
      | error f =>
        have none_fits : ∀ ws : List Value, rest.map (decRead rom) ≠ ws.map some := fun ws h => by
          have := ih.mpr h
          simp [hr] at this
        cases vs <;> simp [lookupAll, hc, hr, none_fits]
      | ok ws =>
        have fits := ih.mp hr
        cases vs with
        | nil => simp [lookupAll, hc, hr]
        | cons w vs =>
          simp only [lookupAll, hc, hr, Except.ok.injEq, List.cons.injEq, List.map_cons, present, Option.some.injEq, fits]
          exact and_congr_right fun _ => (List.map_injective_iff.mpr (Option.some_injective _)).eq_iff.symm

/-- The lookup phase fails exactly at the first absent character, naming it (R84). -/
theorem lookupAll_eq_error {rom : Vector (Option Value) 256} {text : List Chr} {f : Failure} :
    lookupAll rom text = .error f ↔
      ∃ c, text.find? (fun a => (decRead rom a).isNone) = some c ∧ f = .invalidSymbol c := by
  induction text with
  | nil => simp [lookupAll]
  | cons c rest ih =>
    cases hc : chrLookup rom c with
    | error g =>
      obtain ⟨absent, rfl⟩ := chrLookup_eq_error.mp hc
      simp [lookupAll, hc, absent, eq_comm]
    | ok v =>
      have present := chrLookup_eq_ok.mp hc
      cases hr : lookupAll rom rest with
      | error g =>
        rw [hr] at ih
        simpa [lookupAll, hc, hr, present] using ih
      | ok ws =>
        rw [hr] at ih
        simpa [lookupAll, hc, hr, present] using ih

/-- The values of a text are as many as its characters. -/
theorem lookupAll_length {rom : Vector (Option Value) 256} {text : List Chr} {vs : List Value}
    (h : lookupAll rom text = .ok vs) : vs.length = text.length := by
  simpa using (congrArg List.length (lookupAll_eq_ok.mp h)).symm

end Sys2Proof.Machine
end

