-- ==== Sys2Proof/Laws/State.lean ====
section
/-! SUPPORT. What each update of State leaves in each field, so that no later proof unfolds a record update. -/

namespace Sys2Proof.Machine

@[simp] theorem emit_encRom (r : Response) (s : State) : (emit r s).encRom = s.encRom := rfl
@[simp] theorem emit_decRom (r : Response) (s : State) : (emit r s).decRom = s.decRom := rfl
@[simp] theorem emit_inputs (r : Response) (s : State) : (emit r s).inputs = s.inputs := rfl
@[simp] theorem emit_responses (r : Response) (s : State) : (emit r s).responses = s.responses ++ [r] := rfl

@[simp] theorem applyReset_encRom (s : State) : (applyReset s).encRom = encRomInit := rfl
@[simp] theorem applyReset_decRom (s : State) : (applyReset s).decRom = decRomInit := rfl
@[simp] theorem applyReset_inputs (s : State) : (applyReset s).inputs = s.inputs := rfl
@[simp] theorem applyReset_responses (s : State) : (applyReset s).responses = s.responses := rfl

@[simp] theorem pushInput_encRom (a : Input) (s : State) : (pushInput a s).encRom = s.encRom := rfl
@[simp] theorem pushInput_decRom (a : Input) (s : State) : (pushInput a s).decRom = s.decRom := rfl
@[simp] theorem pushInput_inputs (a : Input) (s : State) : (pushInput a s).inputs = a :: s.inputs := rfl
@[simp] theorem pushInput_responses (a : Input) (s : State) : (pushInput a s).responses = s.responses := rfl

@[simp] theorem okResponse_status (p : List (BitVec 8)) : (okResponse p).status = .ok := rfl
@[simp] theorem okResponse_len (p : List (BitVec 8)) : (okResponse p).len = p.length := rfl
@[simp] theorem okResponse_payload (p : List (BitVec 8)) : (okResponse p).payload = p := rfl
@[simp] theorem okResponse_badChar (p : List (BitVec 8)) : (okResponse p).badChar = 0 := rfl

@[simp] theorem failureResponse_status (f : Failure) : (failureResponse f).status = failureStatus f := rfl
@[simp] theorem failureResponse_len (f : Failure) : (failureResponse f).len = 0 := rfl
@[simp] theorem failureResponse_payload (f : Failure) : (failureResponse f).payload = [] := rfl
@[simp] theorem failureResponse_badChar (f : Failure) : (failureResponse f).badChar = failureBadChar f := rfl

/-- The reset state, field by field (R22). -/
@[simp] theorem reset_encRom : State.reset.encRom = encRomInit := rfl
@[simp] theorem reset_decRom : State.reset.decRom = decRomInit := rfl
@[simp] theorem reset_inputs : State.reset.inputs = [] := rfl
@[simp] theorem reset_responses : State.reset.responses = [] := rfl

/-- Nothing waits exactly when the list of inputs is empty. -/
theorem nextInput_eq_none {s : State} : nextInput s = none ↔ s.inputs = [] := by
  cases h : s.inputs <;> simp [nextInput, h]

/-- What is taken is the oldest input, and only the list of inputs changes. -/
theorem nextInput_eq_some {s t : State} {a : Input} :
    nextInput s = some (a, t) ↔ s.inputs = a :: t.inputs ∧ t = { s with inputs := t.inputs } := by
  cases h : s.inputs with
  | nil => simp [nextInput, h]
  | cons b rest =>
    simp only [nextInput, h, Option.some.injEq, Prod.mk.injEq, List.cons.injEq]
    constructor
    · rintro ⟨rfl, rfl⟩; simp
    · rintro ⟨⟨rfl, rfl⟩, ht⟩; exact ⟨rfl, ht.symm⟩

end Sys2Proof.Machine
end

