-- ==== Sys2Proof/Laws/Machine.lean ====
section
/-! SUPPORT. What the shared operations, the two meanings and a step can do, said once; the answers to a command taken
alone; and the induction over runs. -/

namespace Sys2Proof.Machine

/-! ## Shared operations -/

@[simp] theorem withInput_null (len : Nat) (payload : List (BitVec 8)) (s : State)
    (body : List (BitVec 8) → Host.Outcome State Fault Refusal) :
    withInput false len payload s body = .next (emit (failureResponse .invalidArgument) s) := rfl

@[simp] theorem withInput_present (payload : List (BitVec 8)) (s : State)
    (body : List (BitVec 8) → Host.Outcome State Fault Refusal) :
    withInput true payload.length payload s body = body payload := by simp [withInput]

theorem withInput_mismatch {len : Nat} {payload : List (BitVec 8)} (s : State)
    (body : List (BitVec 8) → Host.Outcome State Fault Refusal) (h : len ≠ payload.length) :
    withInput true len payload s body = .refused .lengthMismatch := by simp [withInput, h]

/-- The response an operation's result ends in. -/
def resultResponse : Except Failure (List (BitVec 8)) → Response
  | .ok payload => okResponse payload
  | .error f => failureResponse f

theorem finish_eq (result : Except Failure (List (BitVec 8))) (s : State) :
    finish result s = .next (emit (resultResponse result) s) := by cases result <;> rfl

/-! ## The meanings -/

/-- The response of an instruction, given the tables. -/
def tableResponse (encRom : Vector Chr 32) (decRom : Vector (Option Value) 256) : Instr → Response
  | .encode true _ data => okResponse (encodePayload encRom data)
  | .encode false _ _ => failureResponse .invalidArgument
  | .decode true _ text => resultResponse (decodePayload decRom text)
  | .decode false _ _ => failureResponse .invalidArgument

/-- A command of R50 is answered with its response and nothing else changes. -/
theorem exec_wellFormed {i : Instr} (h : i.wellFormed = true) (s : State) :
    exec i s = .next (emit (tableResponse s.encRom s.decRom i) s) := by
  cases i with
  | encode present len payload =>
    cases present with
    | false => rfl
    | true =>
      obtain rfl : len = payload.length := by simpa [Instr.wellFormed, operandsWellFormed] using h
      simp [exec, execEncode, returnOk, tableResponse]
  | decode present len payload =>
    cases present with
    | false => rfl
    | true =>
      obtain rfl : len = payload.length := by simpa [Instr.wellFormed, operandsWellFormed] using h
      simp [exec, execDecode, finish_eq, tableResponse]

/-- What is no command of R50 is refused. -/
theorem exec_illFormed {i : Instr} (h : i.wellFormed = false) (s : State) :
    exec i s = .refused .lengthMismatch := by
  cases i <;> rename_i present len payload <;> cases present <;>
    simp_all [Instr.wellFormed, operandsWellFormed, exec, execEncode, execDecode, withInput]

/-- If `exec` answers a next state, the instruction is a command and the state is the old one with its response. -/
theorem exec_next {i : Instr} {s t : State} (h : exec i s = .next t) :
    i.wellFormed = true ∧ t = emit (tableResponse s.encRom s.decRom i) s := by
  cases hw : i.wellFormed with
  | false => simp [exec_illFormed hw] at h
  | true => simpa [exec_wellFormed hw, eq_comm] using h

/-! ## The answer to a command taken alone -/

theorem answer_wellFormed {i : Instr} (h : i.wellFormed = true) :
    answer i = some (tableResponse encRomInit decRomInit i) := by simp [answer, exec_wellFormed h]

theorem answer_illFormed {i : Instr} (h : i.wellFormed = false) : answer i = none := by
  simp [answer, exec_illFormed h]

/-- `enc` is ENCODE's payload over the constant table. -/
theorem enc_eq (x : List Byte) : enc x = encodePayload encRomInit x := by
  simp [enc, answer_wellFormed, Instr.wellFormed, operandsWellFormed, tableResponse]

/-- `dec` is DECODE's payload over the constant table, where the lookups succeed. -/
theorem dec_eq (s : List Chr) : dec s = (decodePayload decRomInit s).toOption := by
  cases h : decodePayload decRomInit s with
  | ok d => simp [dec, answer_wellFormed, Instr.wellFormed, operandsWellFormed, tableResponse, resultResponse, h,
      Except.toOption]
  | error f => cases f <;> simp [dec, answer_wellFormed, Instr.wellFormed, operandsWellFormed, tableResponse,
      resultResponse, h, Except.toOption, failureStatus]

/-! ## Decoder and step -/

/-- The decoder accepts exactly the records of R50. -/
theorem decodeCommand_isOk (c : Command) :
    (∃ i, decodeCommand c = .ok i) ↔ operandsWellFormed (headerPresent c.header) c.len c.payload = true := by
  simp only [decodeCommand]
  split
  · rename_i h
    cases headerOp c.header <;> simp [h]
  · rename_i h
    simp [h]

/-- What the decoder accepts is a command of R50. -/
theorem decodeCommand_wellFormed {c : Command} {i : Instr} (h : decodeCommand c = .ok i) : i.wellFormed = true := by
  simp only [decodeCommand] at h
  split at h
  · rename_i hw
    cases hop : headerOp c.header <;> simp only [hop, Except.ok.injEq] at h <;> subst h <;> exact hw
  · cases h

/-- Everything a step that answers a next state can have done: nothing, a reset, or one command. -/
theorem step_next {s t : State} (h : step s = .next t) :
    (s.inputs = [] ∧ t = s) ∨
    (∃ p rest, s.inputs = .reset p :: rest ∧ t = applyReset { s with inputs := rest }) ∨
    ∃ c rest i, s.inputs = .command c :: rest ∧ decodeCommand c = .ok i ∧ i.wellFormed = true ∧
      t = emit (tableResponse s.encRom s.decRom i) { s with inputs := rest } := by
  cases hi : s.inputs with
  | nil =>
    simp only [step, nextInput, hi, Host.Outcome.next.injEq] at h
    exact .inl ⟨rfl, h.symm⟩
  | cons a rest =>
    cases a with
    | reset p =>
      simp only [step, nextInput, hi, Host.Outcome.next.injEq] at h
      exact .inr (.inl ⟨p, rest, rfl, h.symm⟩)
    | command c =>
      cases hd : decodeCommand c with
      | error e => simp [step, nextInput, hi, hd] at h
      | ok i =>
        simp only [step, nextInput, hi, hd] at h
        obtain ⟨hw, rfl⟩ := exec_next h
        exact .inr (.inr ⟨c, rest, i, rfl, hd, hw, rfl⟩)

/-- No step, no change. -/
theorem run_zero (s : State) : Sys2Proof.core.run 0 s = .next s := rfl

/-- One step and then the rest of a run. -/
theorem run_succ (k : Nat) {s t : State} (h : step s = .next t) :
    Sys2Proof.core.run (k + 1) s = Sys2Proof.core.run k t := by
  have h' : Sys2Proof.core.step s = .next t := h
  simp only [Host.Core.run, h']

/-- A refused step ends the run. -/
theorem run_refused (k : Nat) {s : State} {r : Refusal} (h : step s = .refused r) :
    Sys2Proof.core.run (k + 1) s = .refused r := by
  have h' : Sys2Proof.core.step s = .refused r := h
  simp only [Host.Core.run, h']

/-- What holds at the start and is kept by every step holds after every run. -/
theorem run_keeps (P : State → Prop) (keeps : ∀ s t, P s → step s = .next t → P t) (k : Nat) :
    ∀ s t : State, P s → Sys2Proof.core.run k s = .next t → P t := by
  induction k with
  | zero =>
    intro s t hs h
    cases h
    exact hs
  | succ k ih =>
    intro s t hs h
    cases hstep : step s with
    | next u => exact ih u t (keeps s u hs hstep) (run_succ k hstep ▸ h)
    | fault r => exact nomatch r
    | refused r => cases (run_refused k hstep).symm.trans h

end Sys2Proof.Machine
end

