-- ==== Sys2Proof/Laws/PerInstr.lean ====
section
/-! SUPPORT. Statements made of every instruction as syntax, one lemma per constructor. -/

/-- The `match` of an instruction's row of the opcode table, under the mask `0b10` (R54). -/
def Sys2Proof.Laws.OpcodeRow.rowMatch : Sys2Proof.Instr → BitVec 2
  | .encode _ _ _ => 0b00
  | .decode _ _ _ => 0b10

theorem Sys2Proof.Laws.OpcodeRow.header_masked :
    ∀ op present : Bool, Sys2Proof.headerOf op present &&& 0b10 = if op = true then 0b10 else 0b00 := by decide

theorem Sys2Proof.Laws.OpcodeRow.header_present :
    ∀ op present : Bool, Sys2Proof.headerPresent (Sys2Proof.headerOf op present) = present := by decide

/-- The encoded command carries its row's fixed bit, and its `present`, `len` and payload unchanged (R50, R54). -/
def Sys2Proof.Laws.OpcodeRow.Statement (i : Sys2Proof.Instr) : Prop :=
  (Sys2Proof.encodeCommand i).header &&& 0b10 = Sys2Proof.Laws.OpcodeRow.rowMatch i ∧
  match i with
  | .encode present len payload =>
    Sys2Proof.headerPresent (Sys2Proof.encodeCommand i).header = present ∧
    (Sys2Proof.encodeCommand i).len = len ∧ (Sys2Proof.encodeCommand i).payload = payload
  | .decode present len payload =>
    Sys2Proof.headerPresent (Sys2Proof.encodeCommand i).header = present ∧
    (Sys2Proof.encodeCommand i).len = len ∧ (Sys2Proof.encodeCommand i).payload = payload

theorem Sys2Proof.Laws.OpcodeRow.encode (present : Bool) (len : Nat) (payload : List Sys2Proof.Byte) :
    Sys2Proof.Laws.OpcodeRow.Statement (.encode present len payload) := by
  exact ⟨Sys2Proof.Laws.OpcodeRow.header_masked false present, Sys2Proof.Laws.OpcodeRow.header_present false present, rfl, rfl⟩

theorem Sys2Proof.Laws.OpcodeRow.decode (present : Bool) (len : Nat) (payload : List Sys2Proof.Chr) :
    Sys2Proof.Laws.OpcodeRow.Statement (.decode present len payload) := by
  exact ⟨Sys2Proof.Laws.OpcodeRow.header_masked true present, Sys2Proof.Laws.OpcodeRow.header_present true present, rfl, rfl⟩
end

