-- ==== Sys2Proof/Machine/TextForm.lean ====
section
/-! DEFINITION. The one-line textual form of commands and responses (30_encoding.md R56). It is the spec's notation
and no part of a step; a character is printed as itself, whatever its code (log 18). -/

namespace Sys2Proof.Machine

/-- One hexadecimal digit, in capitals as in the spec's vectors. -/
def hexDigit (n : Nat) : Char := "0123456789ABCDEF".toList.getD n '?'

/-- Two hexadecimal digits. -/
def hexByte (b : BitVec 8) : List Char := [hexDigit (b.toNat / 16), hexDigit (b.toNat % 16)]

/-- Hex bytes separated by spaces; `empty` for none (R56). -/
def hexBytes : List (BitVec 8) → List Char
  | [] => "empty".toList
  | [b] => hexByte b
  | b :: c :: rest => hexByte b ++ ' ' :: hexBytes (c :: rest)

/-- The character a code stands for (R14). -/
def glyph (c : Chr) : Char := Char.ofNat c.toNat

/-- A text in double quotes (R56). -/
def quotedText (text : List Chr) : List Char := '"' :: text.map glyph ++ ['"']

/-- The left side of a line: `ENCODE <hex bytes | empty | null>` or `DECODE "<text>" | null` (R56). -/
def commandLine : Instr → List Char
  | .encode false _ _ => "ENCODE null".toList
  | .encode true _ data => "ENCODE ".toList ++ hexBytes data
  | .decode false _ _ => "DECODE null".toList
  | .decode true _ text => "DECODE ".toList ++ quotedText text

/-- The payload of an OK response as the operation's output is written (R56). -/
def payloadLine : Instr → List (BitVec 8) → List Char
  | .encode _ _ _, text => quotedText text
  | .decode _ _ _, data => hexBytes data

/-- The right side of a line (R56). -/
def responseLine (i : Instr) (r : Response) : List Char :=
  match r.status with
  | .ok => "OK ".toList ++ payloadLine i r.payload
  | .invalidArgument => "INVALID_ARGUMENT".toList
  | .invalidSymbol => "INVALID_SYMBOL '".toList ++ glyph r.badChar :: "' (0x".toList ++ hexByte r.badChar ++ [')']

/-- A command and its response on one line (R56). -/
def exchangeLine (i : Instr) (r : Response) : List Char := commandLine i ++ " -> ".toList ++ responseLine i r

end Sys2Proof.Machine
end

