-- ==== Sys2Proof/Tests/Slice0.lean ====
section
/-! SUPPORT. The model's own tests. Expected results come from 95_test_vectors.md, 30_encoding.md and the worked
examples of 40_encode.md and 41_decode.md; each theorem names the vector. The last part gives, for every statement
with hypotheses, concrete data that meet them. -/

namespace Sys2Proof.Machine

/-- A text of the vectors as character codes (G1: ASCII). -/
def ascii (s : String) : List Chr := s.toList.map fun ch => BitVec.ofNat 8 ch.toNat

/-- A state with the constant tables and the given inputs waiting. -/
def waiting (inputs : List Input) : State := { State.reset with inputs := inputs }

/-! ## WellFormed refuses an ill-formed term of each constructor (R50) -/

theorem test_wellFormed_encode_length :
    (Instr.encode true 2 [0x66]).wellFormed = false ∧ (Instr.encode true 1 [0x66]).wellFormed = true ∧
    (Instr.encode false 2 [0x66]).wellFormed = true := by decide

theorem test_wellFormed_decode_length :
    (Instr.decode true 0 [0x40]).wellFormed = false ∧ (Instr.decode true 1 [0x40]).wellFormed = true ∧
    (Instr.decode false 0 [0x40]).wellFormed = true := by decide

/-! ## Decoding: headers written out bit by bit as `op, present` (R54; headers of programs P1 and P3) -/

theorem test_decode_header_01_is_encode :
    decodeCommand ⟨0b01#2, 1, [0x66]⟩ = .ok (.encode true 1 [0x66]) := by rfl

theorem test_decode_header_00_is_encode_null :
    decodeCommand ⟨0b00#2, 7, [0x66]⟩ = .ok (.encode false 7 [0x66]) := by rfl

theorem test_decode_header_11_is_decode :
    decodeCommand ⟨0b11#2, 2, [0x43, 0x52]⟩ = .ok (.decode true 2 [0x43, 0x52]) := by rfl

theorem test_decode_header_10_is_decode_null :
    decodeCommand ⟨0b10#2, 1, [0x40]⟩ = .ok (.decode false 1 [0x40]) := by rfl

theorem test_decode_length_mismatch_refused :
    decodeCommand ⟨0b11#2, 3, [0x43, 0x52]⟩ = .error .lengthMismatch := by rfl

theorem test_table_words :
    decodeTableWord 8 0b00 = some (.encode false 0 []) ∧ decodeTableWord 8 0b01 = some (.encode true 0 []) ∧
    decodeTableWord 8 0b10 = some (.decode false 0 []) ∧ decodeTableWord 8 0b11 = some (.decode true 0 []) := by
  decide

theorem test_withFetchWord_runs_first :
    step (State.reset.withFetchWord 8 0b10) =
      .next { State.reset with responses := [⟨.invalidArgument, 0, [], 0⟩] } := by rfl

/-! ## The two instructions, at most two theorems each -/

/-- Vectors E24 (every ENC_ROM entry once, in order), S3 and S4. -/
theorem test_encode_vectors :
    enc [0x00, 0x44, 0x32, 0x14, 0xC7, 0x42, 0x54, 0xB6, 0x35, 0xCF, 0x84, 0x65, 0x3A, 0x56, 0xD7, 0xC6, 0x75, 0xBE,
      0x77, 0xDF] = ascii "0123456789ABCDEFGHJKMNPQRSTVWXYZ" ∧
    enc (ascii "foobar") = ascii "CSQPYRK1E8" ∧ enc (ascii "Hello, world!") = ascii "91JPRV3F5GG7EVVJDHJ22" := by
  decide

/-- Program P1 step 1, vectors E10, E12, E13 (each residue of n modulo 5) and E25. -/
theorem test_encode_responses :
    answer (.encode true 1 [0x66]) = some ⟨.ok, 2, [0x43, 0x52], 0x00⟩ ∧
    enc [0xFF, 0xFF] = ascii "ZZZG" ∧ enc [0xFF, 0xFF, 0xFF] = ascii "ZZZZY" ∧
    enc [0xFF, 0xFF, 0xFF, 0xFF] = ascii "ZZZZZZR" ∧
    answer (.encode false 9 [0x66]) = some ⟨.invalidArgument, 0, [], 0x00⟩ := by decide

/-- Program P2 step 1 (lower case and an alias), vectors DD5, DD13, DL3 and DA7. -/
theorem test_decode_vectors :
    answer (.decode true 10 (ascii "csqpyrkle8")) = some ⟨.ok, 6, [0x66, 0x6F, 0x6F, 0x62, 0x61, 0x72], 0x00⟩ ∧
    dec (ascii "ZZZ") = some [0xFF] ∧ dec (ascii "CSQPYRK1E") = some [0x66, 0x6F, 0x6F, 0x62, 0x61] ∧
    dec (ascii "CZ") = some [0x67] ∧ dec (ascii "OILoil") = some [0x00, 0x42, 0x00] := by decide

/-- Vectors DX1, DX3, DX6, DX18 (program P3 step 1), DX19, DX22, and DD2. -/
theorem test_decode_failures :
    answer (.decode true 1 (ascii "@")) = some ⟨.invalidSymbol, 0, [], 0x40⟩ ∧
    answer (.decode true 1 (ascii "u")) = some ⟨.invalidSymbol, 0, [], 0x75⟩ ∧
    answer (.decode true 2 (ascii "@U")) = some ⟨.invalidSymbol, 0, [], 0x40⟩ ∧
    answer (.decode true 11 (ascii "CSQPYRK1E8U")) = some ⟨.invalidSymbol, 0, [], 0x55⟩ ∧
    answer (.decode true 9 (ascii "00000000@")) = some ⟨.invalidSymbol, 0, [], 0x40⟩ ∧
    answer (.decode false 1 (ascii "@")) = some ⟨.invalidArgument, 0, [], 0x00⟩ ∧
    answer (.decode true 1 (ascii "0")) = some ⟨.ok, 0, [], 0x00⟩ := by decide

/-! ## One step of each other kind, the textual form, the group vectors -/

/-- R136: a reset in the middle of `ENCODE 66` gives no response. -/
theorem test_reset_abandons :
    step (waiting [.reset (some ⟨0b01#2, 1, [0x66]⟩), .command ⟨0b01#2, 0, []⟩]) =
      .next (waiting [.command ⟨0b01#2, 0, []⟩]) := by rfl

/-- R56 and the response column of the tables in 40_encode.md and 41_decode.md, section 5. -/
theorem test_text_form :
    exchangeLine (.encode true 3 [0x66, 0x6F, 0x6F]) (okResponse (ascii "CSQPY")) =
      "ENCODE 66 6F 6F -> OK \"CSQPY\"".toList ∧
    exchangeLine (.decode true 1 (ascii "0")) (okResponse []) = "DECODE \"0\" -> OK empty".toList ∧
    exchangeLine (.decode true 2 (ascii "CU")) (failureResponse (.invalidSymbol 0x55)) =
      "DECODE \"CU\" -> INVALID_SYMBOL 'U' (0x55)".toList ∧
    exchangeLine (.encode false 0 []) (failureResponse .invalidArgument) =
      "ENCODE null -> INVALID_ARGUMENT".toList := by decide

/-- Vectors EG0 to EG7: each input sets exactly the five bits of one field. -/
theorem test_group_single_fields :
    encGroup ⟨0xF8, 0x00, 0x00, 0x00, 0x00⟩ = ⟨31, 0, 0, 0, 0, 0, 0, 0⟩ ∧
    encGroup ⟨0x07, 0xC0, 0x00, 0x00, 0x00⟩ = ⟨0, 31, 0, 0, 0, 0, 0, 0⟩ ∧
    encGroup ⟨0x00, 0x3E, 0x00, 0x00, 0x00⟩ = ⟨0, 0, 31, 0, 0, 0, 0, 0⟩ ∧
    encGroup ⟨0x00, 0x01, 0xF0, 0x00, 0x00⟩ = ⟨0, 0, 0, 31, 0, 0, 0, 0⟩ ∧
    encGroup ⟨0x00, 0x00, 0x0F, 0x80, 0x00⟩ = ⟨0, 0, 0, 0, 31, 0, 0, 0⟩ ∧
    encGroup ⟨0x00, 0x00, 0x00, 0x7C, 0x00⟩ = ⟨0, 0, 0, 0, 0, 31, 0, 0⟩ ∧
    encGroup ⟨0x00, 0x00, 0x00, 0x03, 0xE0⟩ = ⟨0, 0, 0, 0, 0, 0, 31, 0⟩ ∧
    encGroup ⟨0x00, 0x00, 0x00, 0x00, 0x1F⟩ = ⟨0, 0, 0, 0, 0, 0, 0, 31⟩ := by decide

/-- Vectors EG8 to EG11 read from right to left (R83). -/
theorem test_packer_vectors :
    decGroup ⟨0, 1, 2, 3, 4, 5, 6, 7⟩ = ⟨0x00, 0x44, 0x32, 0x14, 0xC7⟩ ∧
    decGroup ⟨8, 9, 10, 11, 12, 13, 14, 15⟩ = ⟨0x42, 0x54, 0xB6, 0x35, 0xCF⟩ ∧
    decGroup ⟨16, 17, 18, 19, 20, 21, 22, 23⟩ = ⟨0x84, 0x65, 0x3A, 0x56, 0xD7⟩ ∧
    decGroup ⟨24, 25, 26, 27, 28, 29, 30, 31⟩ = ⟨0xC6, 0x75, 0xBE, 0x77, 0xDF⟩ := by decide

/-- R5: the types and the two group sizes are those of Config. -/
theorem test_parameters :
    Byte = BitVec Config.byteW ∧ Value = BitVec Config.symW ∧ Chr = BitVec Config.charW ∧
    Config.alphabetSize = 2 ^ Config.symW ∧ encRomInit.size = Config.alphabetSize ∧
    decRomInit.size = 2 ^ Config.charW ∧
    (decGroup ⟨0, 0, 0, 0, 0, 0, 0, 0⟩).toList.length = Config.encGroupBytes ∧
    (encGroup ⟨0, 0, 0, 0, 0⟩).toList.length = Config.decGroupSyms := ⟨rfl, rfl, rfl, rfl, rfl, rfl, rfl, rfl⟩

/-! ## Data that meet the hypotheses of each statement -/

/-- A state on which `ENCODE 66` waits. -/
def encodeWaiting : State := waiting [.command ⟨0b01#2, 1, [0x66]⟩]

theorem witness_DecodingInvertsEncoding :
    (Instr.decode true 2 [0x43, 0x52]).wellFormed = true ∧
    decodeCommand ⟨0b11#2, 2, [0x43, 0x52]⟩ = .ok (.decode true 2 [0x43, 0x52]) := ⟨rfl, rfl⟩

theorem witness_OnlyALengthMismatchIsRefused :
    (waiting [.command ⟨0b01#2, 2, [0x66]⟩]).inputs = .command ⟨0b01#2, 2, [0x66]⟩ :: [] ∧
    (⟨0b01#2, 2, [0x66]⟩ : Command).header.getLsbD 0 = true ∧ (2 : Nat) ≠ [0x66#8].length ∧
    (Instr.encode true 2 [0x66]).wellFormed = false ∧ (Instr.decode true 0 [0x66]).wellFormed = false := by decide

theorem witness_StepRunsTheDecodedCommand :
    encodeWaiting.inputs = .command ⟨0b01#2, 1, [0x66]⟩ :: [] ∧
    decodeCommand ⟨0b01#2, 1, [0x66]⟩ = .ok (.encode true 1 [0x66]) ∧ State.reset.inputs = [] := ⟨rfl, rfl, rfl⟩

theorem witness_TablesAgreeWithEachOther : decRead decRomInit 0x6C = some 1 ∧ decRead decRomInit 0x5A = some 31 := by
  decide

theorem witness_ResetAnswersNothing :
    (waiting [.reset none]).inputs = .reset none :: [] ∧
    (waiting [.reset (some ⟨0b01#2, 1, [0x66]⟩)]).inputs = .reset (some ⟨0b01#2, 1, [0x66]⟩) :: [] := by decide

theorem witness_EncodeAnswersTheBitString : State.reset.encRom = encRomInit := rfl

theorem witness_DecodeAnswersTheBitString :
    State.reset.decRom = decRomInit ∧
    ([0x43, 0x52] : List Chr).map (decRead decRomInit) = ([12, 24] : List Value).map some := ⟨rfl, by decide⟩

theorem witness_DecodeReportsTheFirstAbsentCharacter :
    State.reset.decRom = decRomInit ∧ AcceptedText [0x43] ∧ acceptedChr 0x55 = false := ⟨rfl, by decide, by decide⟩

theorem witness_EveryCommandGetsExactlyOneResponse :
    (Instr.encode true 1 [0x66]).wellFormed = true ∧ (Instr.encode false 3 []).wellFormed = true ∧
    (Instr.decode true 1 [0x40]).wellFormed = true ∧ (Instr.decode false 3 []).wellFormed = true := by decide

theorem witness_ResponseDependsOnTheCommandOnly :
    (Instr.encode true 1 [0x66]).wellFormed = true ∧ TablesConstant encodeWaiting := ⟨rfl, rfl, rfl⟩

/-- `DECODE null` fails, and `ENCODE 66` may follow it. -/
theorem witness_FailureLeavesNothingBehind :
    exec (.decode false 0 []) State.reset = .next (emit ⟨.invalidArgument, 0, [], 0⟩ State.reset) ∧
    (∃ r, (emit ⟨.invalidArgument, 0, [], 0⟩ State.reset).responses = State.reset.responses ++ [r] ∧ r.status ≠ .ok) ∧
    (Instr.encode true 1 [0x66]).wellFormed = true := ⟨rfl, ⟨_, rfl, by decide⟩, rfl⟩

theorem witness_StepKeepsTablesAndResponseForm :
    Inv encodeWaiting ∧ step encodeWaiting = .next (emit ⟨.ok, 2, [0x43, 0x52], 0⟩ State.reset) :=
  ⟨⟨⟨rfl, rfl⟩, by decide⟩, rfl⟩

theorem witness_RunAnswersEveryCommandInOrder :
    TablesConstant (waiting [.command ⟨0b01#2, 1, [0x66]⟩, .command ⟨0b11#2, 1, [0x40]⟩, .reset none]) ∧
    (∀ i ∈ [Instr.encode true 1 [0x66], .decode true 1 [0x40]], i.wellFormed = true) ∧
    (waiting [.command ⟨0b01#2, 1, [0x66]⟩, .command ⟨0b11#2, 1, [0x40]⟩, .reset none]).inputs =
      [Instr.encode true 1 [0x66], .decode true 1 [0x40]].map (fun i => .command (encodeCommand i)) ++ [.reset none] :=
  ⟨⟨rfl, rfl⟩, by decide, by decide⟩

theorem witness_StepNeverStopsOnCommands :
    InputsWellFormed encodeWaiting ∧ InputsWellFormed (waiting [.reset none]) ∧ InputsWellFormed State.reset := by
  decide

theorem witness_NoRunOfCommandsStops :
    InputsWellFormed (waiting [.command ⟨0b01#2, 1, [0x66]⟩, .reset none, .command ⟨0b10#2, 9, []⟩]) := by decide

theorem witness_DecodeOfEncodeIsTheInput :
    TablesConstant encodeWaiting ∧
    encodeWaiting.inputs = .command (encodeCommand (.encode true [0x66#8].length [0x66])) :: [] := ⟨⟨rfl, rfl⟩, rfl⟩

theorem witness_EncodeOfDecodeIsTheTextIffCanonical : AcceptedText [0x63, 0x72] ∧ AcceptedText [0x43, 0x52] := by decide

theorem witness_LengthLaws : AcceptedText [0x5A, 0x5A, 0x5A] := by decide

theorem witness_TruncationDropsOnlyPadding :
    0 < (8 * [0x66#8].length + 4) / 5 ∧ (0 : Value) ∈ (extractValues [0x66]).drop ((8 * [0x66#8].length + 4) / 5) := by
  decide

/-- One input for each residue. -/
theorem witness_LastSymbolEndsInPaddingZeros :
    [0xFF#8] ≠ [] ∧ [0xFF#8].length % 5 = 1 ∧ [0xFF#8, 0xFF].length % 5 = 2 ∧ [0xFF#8, 0xFF, 0xFF].length % 5 = 3 ∧
    [0xFF#8, 0xFF, 0xFF, 0xFF].length % 5 = 4 := by decide

theorem witness_EncodePrefixLaw : [0x66#8, 0x6F, 0x6F, 0x62, 0x61].length % 5 = 0 := by decide

theorem witness_DecodePrefixLaw : AcceptedText (ascii "CSQPYRK1" ++ ascii "E8") := by decide

theorem witness_CaseDoesNotMatter :
    AcceptedText (ascii "cR") ∧ ascii "Cu0" = ascii "C" ++ 0x75 :: ascii "0" ∧ AcceptedText (ascii "C") ∧
    acceptedChr 0x75 = false := by decide

theorem witness_AliasesDoNotMatter :
    AcceptedText (ascii "iO") ∧ (ascii "iO").map (decRead decRomInit) = (ascii "10").map (decRead decRomInit) ∧
    AcceptedText (ascii "CSQPYRK" ++ ascii "E8") ∧ 0x6C#8 ∈ [0x49#8, 0x69#8, 0x4C#8, 0x6C#8, 0x31#8] ∧
    0x6F#8 ∈ [0x4F#8, 0x6F#8, 0x30#8] := by decide

theorem witness_DecodeIsOkIffEveryCharacterIsAccepted : ¬ AcceptedText (ascii "CU") ∧ AcceptedText (ascii "CV") := by
  decide

theorem witness_EncodeEmitsCanonicalSymbolsOnly : 0x43 ∈ enc [0x66] := by decide

theorem witness_EveryByteSequenceHasOneCanonicalText :
    CanonicalText [0x43, 0x52] ∧ dec [0x43, 0x52] = some [0x66] := by
  refine ⟨⟨by decide, by decide, ?_⟩, by decide⟩
  intro c v last value
  obtain rfl : c = 0x52 := by simpa using last.symm
  obtain rfl : v = 24 := by
    have entry : decRead decRomInit 0x52 = some 24 := by decide
    exact Option.some.inj (value.symm.trans entry)
  decide

/-- `CZ` and `CW`: the values 31 and 28 agree above their two low bits. -/
theorem witness_DiscardedBitsAreNotExamined :
    (ascii "CZ").length = (ascii "CW").length ∧
    (ascii "CZ").map (decRead decRomInit) = ([12, 31] : List Value).map some ∧
    (ascii "CW").map (decRead decRomInit) = ([12, 28] : List Value).map some ∧
    ∀ i, i < 8 * (5 * (ascii "CZ").length / 8) → valueBit [12, 31] i = valueBit [12, 28] i := by decide

/-- One text for each residue, and an absent last character. -/
theorem witness_LengthsEncodeNeverProducesAreAccepted :
    AcceptedText (ascii "ZZZZZ") ∧ ((ascii "").length + 1) % 8 ∈ [1, 3, 6] ∧ ((ascii "CR").length + 1) % 8 ∈ [1, 3, 6] ∧
    ((ascii "ZZZZZ").length + 1) % 8 ∈ [1, 3, 6] ∧ acceptedChr 0x30 = true ∧ acceptedChr 0x40 = false := by decide

theorem witness_NothingIsSkippedOrTrimmed :
    0x3D#8 ∈ ascii "CR=" ∧
    0x3D#8 ∈ [0x20#8, 0x09#8, 0x0A#8, 0x0B#8, 0x0C#8, 0x0D#8, 0x2D#8, 0x3D#8, 0x00#8, 0xEF#8, 0xBB#8, 0xBF#8] := by decide

end Sys2Proof.Machine
end

/-! PROOFS. The responses the block gives, and what the two constant tables hold (10_state.md R15 to R22). -/

namespace Sys2Proof.Machine

/-! ## The form of a response -/

@[simp] theorem okResponse_wellFormed (payload : List (BitVec 8)) : responseWellFormed (okResponse payload) = true := by
  simp [responseWellFormed]

/-- DECODE's payload fails only in the lookup phase (R88). -/
theorem decodePayload_eq_error {rom : Vector (Option Value) 256} {text : List Chr} {f : Failure} :
    decodePayload rom text = .error f ↔ lookupAll rom text = .error f := by
  cases h : lookupAll rom text <;> simp [decodePayload, h]

/-- The character DECODE reports is absent from the table (R116). -/
theorem decodePayload_error_absent {rom : Vector (Option Value) 256} {text : List Chr} {f : Failure}
    (h : decodePayload rom text = .error f) : ∃ c, f = .invalidSymbol c ∧ decRead rom c = none := by
  obtain ⟨c, found, rfl⟩ := lookupAll_eq_error.mp (decodePayload_eq_error.mp h)
  exact ⟨c, rfl, by simpa using List.find?_some found⟩

/-- Over the constant DEC_ROM every instruction's response has the form of R52. -/
theorem tableResponse_wellFormed (encRom : Vector Chr 32) (i : Instr) :
    responseWellFormed (tableResponse encRom decRomInit i) = true := by
  cases i with
  | encode present len data =>
    cases present with
    | false => rfl
    | true => exact okResponse_wellFormed _
  | decode present len text =>
    cases present with
    | false => rfl
    | true =>
      cases result : decodePayload decRomInit text with
      | ok data => simp [tableResponse, resultResponse, result]
      | error f =>
        obtain ⟨c, rfl, absent⟩ := decodePayload_error_absent result
        simp [tableResponse, resultResponse, result, responseWellFormed, failureStatus, failureBadChar, absent]

/-- Settles O20: an idle step changes nothing, a reset writes the constants, and a command adds one response whose form
follows from the constant DEC_ROM. -/
theorem stepKeepsTablesAndResponseForm : Obligations.StepKeepsTablesAndResponseForm := by
  rintro s t ⟨⟨henc, hdec⟩, formed⟩ hstep
  obtain ⟨-, rfl⟩ | ⟨p, rest, -, rfl⟩ | ⟨c, rest, i, -, -, -, rfl⟩ := step_next hstep
  · exact ⟨⟨henc, hdec⟩, formed⟩
  · exact ⟨⟨rfl, rfl⟩, formed⟩
  · refine ⟨⟨henc, hdec⟩, fun r hr => ?_⟩
    obtain given | rfl : r ∈ s.responses ∨ r = tableResponse s.encRom s.decRom i := by simpa using hr
    · exact formed r given
    · exact hdec ▸ tableResponse_wellFormed s.encRom i

/-- Settles O21: reset writes the constants and no response has been given. -/
theorem resetMeetsTheInvariant : Obligations.ResetMeetsTheInvariant :=
  ⟨⟨reset_encRom, reset_decRom⟩, by simp⟩

/-! ## Reading the map of R18 -/

/-- A row of R18's map by its number, the high hexadecimal digit of its codes. -/
def decRow : Nat → List (Option Value)
  | 3 => decRowDigits
  | 4 | 6 => decRowAtoO
  | 5 | 7 => decRowPtoZ
  | _ => decRowAbsent

theorem decRow_length (row : Nat) : (decRow row).length = 16 := by
  unfold decRow
  split <;> rfl

/-- DEC_ROM is its sixteen rows in sequence. -/
theorem decRomInit_toList : decRomInit.toList = (List.range 16).flatMap decRow := by
  have pieces : decRomInit.toList = decRowAbsent ++ decRowAbsent ++ decRowAbsent ++ decRowDigits ++
    decRowAtoO ++ decRowPtoZ ++ decRowAtoO ++ decRowPtoZ ++ decRowsHigh := rfl
  have numbers : List.range 16 = [0, 1, 2, 3, 4, 5, 6, 7, 8, 9, 10, 11, 12, 13, 14, 15] := rfl
  simp only [pieces, numbers, decRowsHigh, List.flatMap_cons, List.flatMap_nil, decRow, List.append_assoc,
    List.append_nil]

theorem decRead_eq_getD (rom : Vector (Option Value) 256) (c : Chr) :
    decRead rom c = rom.toList.getD c.toNat none := by
  simp [decRead, List.getD_eq_getElem?_getD, c.isLt]

/-- An entry stands in the row of the code's high digit and the column of its low digit. -/
theorem decRead_decRomInit (c : Chr) :
    decRead decRomInit c = (decRow (c.toNat / 16)).getD (c.toNat % 16) none := by
  rw [decRead_eq_getD, decRomInit_toList, flatMap_blocks_getD decRow 16 16 none decRow_length _ c.isLt]

/-- What holds at every row and column of R18's map holds of every character. -/
theorem forall_chr_of_rows {P : Chr → Prop} (cells : ∀ row col : BitVec 4, P (row ++ col)) (c : Chr) : P c := by
  have digits : c.extractLsb' 4 4 ++ c.extractLsb' 0 4 = c :=
    (BitVec.extractLsb'_append_extractLsb'_eq_extractLsb' rfl).trans BitVec.extractLsb'_eq_self
  exact digits ▸ cells _ _

/-- Counting codes by their entry is counting entries of the table. -/
theorem length_filter_decRead (rom : Vector (Option Value) 256) (p : Option Value → Bool) :
    ((List.range 256).filter fun n => p (decRead rom (BitVec.ofNat 8 n))).length = rom.toList.countP p := by
  have entries : (List.range 256).map (fun n => decRead rom (BitVec.ofNat 8 n)) = rom.toList := by
    refine List.ext_getElem (by simp) fun n hn _ => ?_
    have small : n < 256 := by simpa using hn
    simp [decRead, Nat.mod_eq_of_lt small]
  rw [← entries, List.countP_map, List.countP_eq_length_filter]
  rfl

/-- The codes whose entry satisfies `p`, counted row by row. -/
theorem length_filter_decRomInit (p : Option Value → Bool) :
    ((List.range 256).filter fun n => p (decRead decRomInit (BitVec.ofNat 8 n))).length =
      ((List.range 16).map fun row => (decRow row).countP p).sum := by
  rw [length_filter_decRead, decRomInit_toList, List.countP_flatMap]
  rfl

/-- Settles O5: DEC_ROM is compared with R18's map row by row and column by column. -/
theorem resetLeavesTheConstantTables : Obligations.ResetLeavesTheConstantTables := by
  refine ⟨by decide, forall_chr_of_rows ?_, reset_inputs, reset_responses⟩
  simp only [reset_decRom, decRead_decRomInit]
  decide

/-! ## The four cases of R17 -/

/-- R20 (a): a canonical symbol is looked up to its value. -/
theorem decRead_encRead : ∀ v : Value, decRead decRomInit (encRead encRomInit v) = some v := by decide

/-- The symbols from value 10 on are letters, and each has its lower-case form. -/
theorem decRead_lowercase : ∀ v : Value, 10 ≤ v.toNat →
    decRead decRomInit (encRead encRomInit v + 0x20) = some v := by decide

/-- Every entry of the map falls under one of R17's cases. -/
theorem decRead_some_cases : ∀ (c : Chr) (v : Value), decRead decRomInit c = some v →
    (c = encRead encRomInit v ∨ (10 ≤ v.toNat ∧ c = encRead encRomInit v + 0x20) ∨
     (v = 0 ∧ (c = 0x4F ∨ c = 0x6F)) ∨ (v = 1 ∧ (c = 0x49 ∨ c = 0x69 ∨ c = 0x4C ∨ c = 0x6C))) :=
  forall_chr_of_rows (by simp only [decRead_decRomInit]; decide)

/-- Settles O6: the cases of R17 are read off the map in one direction and off ENC_ROM in the other. -/
theorem decRomHasTheFourCases : Obligations.DecRomHasTheFourCases := by
  refine ⟨fun c v => ⟨decRead_some_cases c v, ?_⟩, by decide, by decide, fun c => ?_⟩
  · rintro (rfl | ⟨letter, rfl⟩ | ⟨rfl, rfl | rfl⟩ | ⟨rfl, rfl | rfl | rfl | rfl⟩)
    · exact decRead_encRead v
    · exact decRead_lowercase v letter
    all_goals decide
  · cases decRead decRomInit c <;> rfl

/-! ## The accepted characters -/

/-- Settles O7: the absent codes are read off the map, and the accepted ones are 10 digits and 25 letters in two
cases. -/
theorem sixtyCharactersAreAccepted : Obligations.SixtyCharactersAreAccepted := by
  refine ⟨forall_chr_of_rows (by simp only [acceptedChr, decRead_decRomInit]; decide), ?_⟩
  calc ((List.range 256).filter fun n => acceptedChr (BitVec.ofNat 8 n)).length
    _ = ((List.range 16).map fun row => (decRow row).countP Option.isSome).sum := length_filter_decRomInit Option.isSome
    _ = 60 := by decide

/-! ## The invariants of R20 -/

/-- A canonical symbol is an entry of ENC_ROM. -/
theorem canonicalChr_iff {c : Chr} : canonicalChr c = true ↔ ∃ v : Value, encRead encRomInit v = c := by
  simp only [canonicalChr, List.contains_iff_mem, Vector.mem_toList_iff, Vector.mem_iff_getElem, encRead]
  constructor
  · rintro ⟨n, hn, rfl⟩
    exact ⟨BitVec.ofNat 5 n, by simp [Nat.mod_eq_of_lt hn]⟩
  · rintro ⟨v, rfl⟩
    exact ⟨v.toNat, v.isLt, rfl⟩

/-- R20 (b): the symbol of an accepted character's value is the character itself exactly when it is canonical. -/
theorem encRead_eq_iff_canonicalChr {c : Chr} {v : Value} (h : decRead decRomInit c = some v) :
    encRead encRomInit v = c ↔ canonicalChr c = true := by
  refine ⟨fun same => canonicalChr_iff.mpr ⟨v, same⟩, fun canonical => ?_⟩
  obtain ⟨w, rfl⟩ := canonicalChr_iff.mp canonical
  obtain rfl : w = v := Option.some.inj ((decRead_encRead w).symm.trans h)
  rfl

/-- R20 (c): how many characters stand for a value. -/
theorem decRow_count : ∀ v : Value, ((List.range 16).map fun row => (decRow row).countP (· == some v)).sum =
    if v = 0 then 3 else if v = 1 then 5 else if v.toNat < 10 then 1 else 2 := by decide

/-- R20 (d), upper case. -/
theorem decRead_toUpper : ∀ c : Chr, decRead decRomInit (toUpper c) = decRead decRomInit c :=
  forall_chr_of_rows (by simp only [decRead_decRomInit]; decide)

/-- R20 (d), lower case. -/
theorem decRead_toLower : ∀ c : Chr, decRead decRomInit (toLower c) = decRead decRomInit c :=
  forall_chr_of_rows (by simp only [decRead_decRomInit]; decide)

/-- Settles O8, one lemma for each of the invariants (a) to (d). -/
theorem tablesAgreeWithEachOther : Obligations.TablesAgreeWithEachOther :=
  ⟨decRead_encRead,
   fun _ v accepted => ⟨canonicalChr_iff.mpr ⟨v, rfl⟩, encRead_eq_iff_canonicalChr accepted⟩,
   fun v => (length_filter_decRomInit (· == some v)).trans (decRow_count v),
   fun c => ⟨decRead_toUpper c, decRead_toLower c⟩⟩

end Sys2Proof.Machine

/-! PROOFS. The 40-bit group, what a present input is answered, the one response of every command, and runs of
commands (20_memory.md R30 to R41). -/

namespace Sys2Proof.Machine

/-! ## The two views of a group -/

/-- Group bit `i` of the byte view; the bit string counts from the most significant bit (R30). -/
theorem byteGroup_bits_getLsbD (q : ByteGroup) (i : Nat) (h : i < 40) :
    q.bits.getLsbD i = byteBit q.toList (39 - i) := by
  change (q.b0 ++ q.b1 ++ q.b2 ++ q.b3 ++ q.b4 : BitVec (8 + 8 + 8 + 8 + 8)).getLsbD i = _
  simp only [BitVec.getLsbD_append]
  interval_cases i <;> rfl

/-- Group bit `i` of the field view; the bit string counts from the most significant bit (R31). -/
theorem fieldGroup_bits_getLsbD (f : FieldGroup) (i : Nat) (h : i < 40) :
    f.bits.getLsbD i = valueBit f.toList (39 - i) := by
  change (f.s0 ++ f.s1 ++ f.s2 ++ f.s3 ++ f.s4 ++ f.s5 ++ f.s6 ++ f.s7 :
    BitVec (5 + 5 + 5 + 5 + 5 + 5 + 5 + 5)).getLsbD i = _
  simp only [BitVec.getLsbD_append]
  interval_cases i <;> rfl

/-- ENC.GROUP only regroups the 40-bit string (R30, R31). -/
theorem encGroup_bits (q : ByteGroup) : (encGroup q).bits = q.bits := by
  apply BitVec.eq_of_getLsbD_eq
  intro i hi
  rw [fieldGroup_bits_getLsbD _ _ hi, byteGroup_bits_getLsbD _ _ hi, encGroup_bit _ _ (by omega)]

/-- DEC.GROUP only regroups the 40-bit string (R30, R31). -/
theorem decGroup_bits (f : FieldGroup) : (decGroup f).bits = f.bits := by
  apply BitVec.eq_of_getLsbD_eq
  intro i hi
  rw [byteGroup_bits_getLsbD _ _ hi, fieldGroup_bits_getLsbD _ _ hi, decGroup_bit _ _ (by omega)]

/-- Byte `k` of a group, counted in output order, is group bits `39 - 8k` down to `32 - 8k` (R45). -/
theorem byteGroup_bits_slice (q : ByteGroup) (k : Nat) (h : k < 5) :
    q.bits.extractLsb' (32 - 8 * k) 8 = q.toList.getD k 0 := by
  apply BitVec.eq_of_getLsbD_eq
  intro j hj
  have element : (39 - (32 - 8 * k + j)) / 8 = k := by omega
  have position : 7 - (39 - (32 - 8 * k + j)) % 8 = j := by omega
  rw [BitVec.getLsbD_extractLsb', byteGroup_bits_getLsbD _ _ (by omega), byteBit, element, position]
  simp [hj]

/-- Field `k` of a group, counted in output order, is group bits `39 - 5k` down to `35 - 5k` (R45). -/
theorem fieldGroup_bits_slice (f : FieldGroup) (k : Nat) (h : k < 8) :
    f.bits.extractLsb' (35 - 5 * k) 5 = f.toList.getD k 0 := by
  apply BitVec.eq_of_getLsbD_eq
  intro j hj
  have element : (39 - (35 - 5 * k + j)) / 5 = k := by omega
  have position : 4 - (39 - (35 - 5 * k + j)) % 5 = j := by omega
  rw [BitVec.getLsbD_extractLsb', fieldGroup_bits_getLsbD _ _ (by omega), valueBit, element, position]
  simp [hj]

/-- Settles O12: both views read the same bit string, and each slice is one element of its view. -/
theorem groupViewsShareFortyBits : Obligations.GroupViewsShareFortyBits := by
  refine ⟨encGroup_bits, decGroup_bits, fun q => ?_, fun f => ?_⟩
  · have slice := byteGroup_bits_slice q
    exact ⟨slice 0 (by decide), slice 1 (by decide), slice 2 (by decide), slice 3 (by decide), slice 4 (by decide)⟩
  · have slice := fieldGroup_bits_slice f
    exact ⟨slice 0 (by decide), slice 1 (by decide), slice 2 (by decide), slice 3 (by decide), slice 4 (by decide),
      slice 5 (by decide), slice 6 (by decide), slice 7 (by decide)⟩

/-! ## ENCODE and DECODE of a present input -/

/-- A present byte sequence with its own length is a command of R50. -/
theorem encode_present_wellFormed (data : List Byte) : (Instr.encode true data.length data).wellFormed = true := by
  simp [Instr.wellFormed, operandsWellFormed]

/-- A present text with its own length is a command of R50. -/
theorem decode_present_wellFormed (text : List Chr) : (Instr.decode true text.length text).wellFormed = true := by
  simp [Instr.wellFormed, operandsWellFormed]

/-- The values ENCODE keeps: `ceil(8n/5)` of them (R65). -/
def keptValues (data : List Byte) : List Value := (extractValues data).take (encodedLength data.length)

/-- Truncation never asks for more values than there are (R65). -/
theorem keptValues_length (data : List Byte) : (keptValues data).length = (8 * data.length + 4) / 5 := by
  rw [keptValues, List.length_take, extractValues_length, encodedLength, ceilDiv]
  omega

/-- The kept values hold the bits of the input followed by zeros (R48, R65). -/
theorem keptValues_bit (data : List Byte) {i : Nat} (h : i < 5 * (keptValues data).length) :
    valueBit (keptValues data) i = byteBit data i := by
  have kept : i < 5 * encodedLength data.length := by
    rwa [keptValues_length] at h
  rw [keptValues, valueBit_take _ _ _ kept, extractValues_bit]

/-- Truncating before SYM.MAP or after it is the same. -/
theorem encodePayload_eq_map (rom : Vector Chr 32) (data : List Byte) :
    encodePayload rom data = (keptValues data).map (encRead rom) :=
  List.map_take.symm

/-- Settles O13: the witness is the list of kept values. -/
theorem encodeAnswersTheBitString : Obligations.EncodeAnswersTheBitString := by
  intro s data henc
  refine ⟨keptValues data, keptValues_length data, fun i hi => keptValues_bit data hi, ?_⟩
  rw [exec_wellFormed (encode_present_wellFormed data)]
  simp [tableResponse, okResponse, emit, encodePayload_eq_map, henc]

/-- The bytes DECODE keeps of those it packs: `floor(5m/8)` for `m` values (R86). -/
def keptBytes (vs : List Value) : List Byte := (packBytes vs).take (decodedLength vs.length)

/-- Truncation never asks for more bytes than there are (R86). -/
theorem keptBytes_length (vs : List Value) : (keptBytes vs).length = 5 * vs.length / 8 := by
  rw [keptBytes, List.length_take, packBytes_length, decodedLength]
  omega

/-- The kept bytes hold the first bits of the values (R48, R86). -/
theorem keptBytes_bit (vs : List Value) {i : Nat} (h : i < 8 * (keptBytes vs).length) :
    byteBit (keptBytes vs) i = valueBit vs i := by
  have kept : i < 8 * decodedLength vs.length := by
    rwa [keptBytes_length] at h
  rw [keptBytes, byteBit_take _ _ _ kept, packBytes_bit]

/-- DECODE succeeds with the kept bytes of the values its lookup phase gives (R84, R85). -/
theorem decodePayload_eq_keptBytes {rom : Vector (Option Value) 256} {text : List Chr} {vs : List Value}
    (h : text.map (decRead rom) = vs.map some) : decodePayload rom text = .ok (keptBytes vs) := by
  have found := lookupAll_eq_ok.mpr h
  rw [decodePayload, found, keptBytes, lookupAll_length found]

/-- Settles O14: the witness is the list of kept bytes of the given values. -/
theorem decodeAnswersTheBitString : Obligations.DecodeAnswersTheBitString := by
  intro s text vs hdec values
  have len : vs.length = text.length := lookupAll_length (lookupAll_eq_ok.mpr values)
  refine ⟨keptBytes vs, len ▸ keptBytes_length vs, fun i hi => keptBytes_bit vs hi, ?_⟩
  rw [exec_wellFormed (decode_present_wellFormed text)]
  simp [tableResponse, resultResponse, okResponse, emit, hdec, decodePayload_eq_keptBytes values]

/-! ## One response for every command -/

/-- A failure of DECODE on a present text is always INVALID_SYMBOL (R88, R116). -/
theorem decodePayload_error_status {rom : Vector (Option Value) 256} {text : List Chr} {f : Failure}
    (h : decodePayload rom text = .error f) : failureStatus f = .invalidSymbol := by
  obtain ⟨c, rfl, -⟩ := decodePayload_error_absent h
  rfl

/-- The fields of a response whatever the tables hold (R52, R121): `len` counts the payload, only OK has a payload,
and `bad_char` is 0 unless the status is INVALID_SYMBOL. -/
def responseFieldsAgree (r : Response) : Prop :=
  r.len = r.payload.length ∧ (r.status ≠ .ok → r.payload = []) ∧ (r.status ≠ .invalidSymbol → r.badChar = 0)

theorem okResponse_fieldsAgree (payload : List (BitVec 8)) : responseFieldsAgree (okResponse payload) := by
  simp [responseFieldsAgree]

theorem failureResponse_fieldsAgree (f : Failure) : responseFieldsAgree (failureResponse f) := by
  cases f <;> simp [responseFieldsAgree, failureStatus, failureBadChar]

theorem resultResponse_fieldsAgree (result : Except Failure (List (BitVec 8))) :
    responseFieldsAgree (resultResponse result) := by
  cases result with
  | ok payload => exact okResponse_fieldsAgree payload
  | error f => exact failureResponse_fieldsAgree f

/-- Every response of an instruction is an OK response or a failure response. -/
theorem tableResponse_fieldsAgree (encRom : Vector Chr 32) (decRom : Vector (Option Value) 256) (i : Instr) :
    responseFieldsAgree (tableResponse encRom decRom i) := by
  cases i with
  | encode present len data =>
    cases present with
    | false => exact failureResponse_fieldsAgree _
    | true => exact okResponse_fieldsAgree _
  | decode present len text =>
    cases present with
    | false => exact failureResponse_fieldsAgree _
    | true => exact resultResponse_fieldsAgree _

/-- INVALID_ARGUMENT answers exactly the null inputs (R115, R117). -/
theorem tableResponse_invalidArgument_iff (encRom : Vector Chr 32) (decRom : Vector (Option Value) 256) (i : Instr) :
    (tableResponse encRom decRom i).status = .invalidArgument ↔
      (∃ len payload, i = .encode false len payload) ∨ ∃ len payload, i = .decode false len payload := by
  cases i with
  | encode present len data => cases present <;> simp [tableResponse, failureStatus]
  | decode present len text =>
    cases present with
    | false => simp [tableResponse, failureStatus]
    | true =>
      cases result : decodePayload decRom text with
      | ok data => simp [tableResponse, resultResponse, result]
      | error f => simp [tableResponse, resultResponse, result, decodePayload_error_status result]

/-- Settles O17: the response is `tableResponse` of the state's own tables. -/
theorem everyCommandGetsExactlyOneResponse : Obligations.EveryCommandGetsExactlyOneResponse := by
  refine ⟨fun i s hw => ⟨tableResponse s.encRom s.decRom i, exec_wellFormed hw s, ?_⟩, rfl, rfl, rfl⟩
  obtain ⟨counted, onlyOk, noBadChar⟩ := tableResponse_fieldsAgree s.encRom s.decRom i
  refine ⟨counted, onlyOk, noBadChar, ?_, tableResponse_invalidArgument_iff s.encRom s.decRom i⟩
  rintro len payload rfl
  exact okResponse_status _

/-! ## Runs of commands -/

/-- The `op` bit of a header is the operation it was formed from (R50, R54). -/
theorem headerOp_headerOf : ∀ op present : Bool, headerOp (headerOf op present) = op := by decide

/-- Decoding an encoded command of R50 gives it back (R50, R54). -/
theorem decodeCommand_encodeCommand {i : Instr} (h : i.wellFormed = true) :
    decodeCommand (encodeCommand i) = .ok i := by
  cases i with
  | encode present len payload =>
    have fields : operandsWellFormed present len payload = true := h
    simp [decodeCommand, encodeCommand, Laws.OpcodeRow.header_present, headerOp_headerOf, fields]
  | decode present len payload =>
    have fields : operandsWellFormed present len payload = true := h
    simp [decodeCommand, encodeCommand, Laws.OpcodeRow.header_present, headerOp_headerOf, fields]

/-- The step that takes an encoded command answers it with its response (R139, R140). -/
theorem step_encodeCommand {s : State} {i : Instr} {rest : List Input} (h : i.wellFormed = true)
    (waits : s.inputs = .command (encodeCommand i) :: rest) :
    step s = .next (emit (tableResponse s.encRom s.decRom i) { s with inputs := rest }) := by
  have taken : nextInput s = some (.command (encodeCommand i), { s with inputs := rest }) :=
    nextInput_eq_some.mpr ⟨waits, rfl⟩
  simp only [step, taken, decodeCommand_encodeCommand h, exec_wellFormed h]

/-- Commands that wait are taken one by one and answered in order over the state's own tables (R41, R139). -/
theorem run_commands (cmds : List Instr) (rest : List Input) (wellFormed : ∀ i ∈ cmds, i.wellFormed = true) :
    ∀ s : State, s.inputs = cmds.map (fun i => .command (encodeCommand i)) ++ rest →
      Sys2Proof.core.run cmds.length s = .next { s with
        inputs := rest, responses := s.responses ++ cmds.map (tableResponse s.encRom s.decRom) } := by
  induction cmds with
  | nil =>
    intro s waits
    obtain rfl : s.inputs = rest := waits
    simp [run_zero]
  | cons i cmds ih =>
    intro s waits
    obtain ⟨head, tail⟩ := List.forall_mem_cons.mp wellFormed
    rw [List.length_cons, run_succ _ (step_encodeCommand head waits), ih tail _ rfl]
    simp [emit]

/-- Settles O22: the constant tables make each response the one the command gets alone. -/
theorem runAnswersEveryCommandInOrder : Obligations.RunAnswersEveryCommandInOrder := by
  rintro s cmds rest ⟨henc, hdec⟩ wellFormed waits
  refine ⟨cmds.map (tableResponse s.encRom s.decRom), ?_, run_commands cmds rest wellFormed s waits⟩
  rw [List.map_map, henc, hdec]
  exact List.map_congr_left fun i hi => answer_wellFormed (wellFormed i hi)

end Sys2Proof.Machine

/-! PROOFS. The bit tables of the extractor and the packer, the command record with its decoder, and null inputs
(30_encoding.md R45 to R55). -/

namespace Sys2Proof.Machine

/-! ## The bit tables of R46 and R47 -/

/-- A slice taken inside a slice is one slice of the whole. -/
theorem extractLsb'_extractLsb'_of_add_le {w inner len : Nat} (x : BitVec w) (outer start : Nat)
    (inside : start + len ≤ inner) :
    (x.extractLsb' outer inner).extractLsb' start len = x.extractLsb' (outer + start) len := by
  apply BitVec.eq_of_getLsbD_eq
  intro i hi
  have within : start + i < inner := by omega
  simp [hi, within, Nat.add_assoc]

/-- Settles O10: bytes and fields are read as slices of the one 40-bit string, where adjacent slices join (R45). -/
theorem extractorFieldBits : Obligations.ExtractorFieldBits := by
  obtain ⟨sameBits, -, byteSlices, fieldSlices⟩ := groupViewsShareFortyBits
  intro q
  obtain ⟨b0, b1, b2, b3, b4⟩ := byteSlices q
  obtain ⟨s0, s1, s2, s3, s4, s5, s6, s7⟩ := sameBits q ▸ fieldSlices (encGroup q)
  simp only [← b0, ← b1, ← b2, ← b3, ← b4, ← s0, ← s1, ← s2, ← s3, ← s4, ← s5, ← s6, ← s7]
  simp (disch := decide) only [extractLsb'_extractLsb'_of_add_le,
    BitVec.extractLsb'_append_extractLsb'_eq_extractLsb', and_self]

/-- A byte group is made of the slices of its 40-bit string (R45). -/
theorem byteGroup_of_slices (q : ByteGroup) :
    ⟨q.bits.extractLsb' 32 8, q.bits.extractLsb' 24 8, q.bits.extractLsb' 16 8, q.bits.extractLsb' 8 8,
      q.bits.extractLsb' 0 8⟩ = q := by
  obtain ⟨-, -, byteSlices, -⟩ := groupViewsShareFortyBits
  obtain ⟨b0, b1, b2, b3, b4⟩ := byteSlices q
  rw [b0, b1, b2, b3, b4]

/-- A field group is made of the slices of its 40-bit string (R45). -/
theorem fieldGroup_of_slices (f : FieldGroup) :
    ⟨f.bits.extractLsb' 35 5, f.bits.extractLsb' 30 5, f.bits.extractLsb' 25 5, f.bits.extractLsb' 20 5,
      f.bits.extractLsb' 15 5, f.bits.extractLsb' 10 5, f.bits.extractLsb' 5 5, f.bits.extractLsb' 0 5⟩ = f := by
  obtain ⟨-, -, -, fieldSlices⟩ := groupViewsShareFortyBits
  obtain ⟨s0, s1, s2, s3, s4, s5, s6, s7⟩ := fieldSlices f
  rw [s0, s1, s2, s3, s4, s5, s6, s7]

/-- The packer inverts the extractor: both keep the 40-bit string, which determines the group (R47). -/
theorem decGroup_encGroup (q : ByteGroup) : decGroup (encGroup q) = q := by
  have same : (decGroup (encGroup q)).bits = q.bits := (decGroup_bits _).trans (encGroup_bits q)
  rw [← byteGroup_of_slices (decGroup (encGroup q)), same, byteGroup_of_slices]

/-- The extractor inverts the packer, for the same reason (R47). -/
theorem encGroup_decGroup (f : FieldGroup) : encGroup (decGroup f) = f := by
  have same : (encGroup (decGroup f)).bits = f.bits := (encGroup_bits _).trans (decGroup_bits f)
  rw [← fieldGroup_of_slices (encGroup (decGroup f)), same, fieldGroup_of_slices]

/-- Settles O11: bytes and fields are read as slices of the one 40-bit string, as in R46's table. -/
theorem packerByteBits : Obligations.PackerByteBits := by
  obtain ⟨-, sameBits, byteSlices, fieldSlices⟩ := groupViewsShareFortyBits
  refine ⟨fun f => ?_, decGroup_encGroup, encGroup_decGroup⟩
  obtain ⟨s0, s1, s2, s3, s4, s5, s6, s7⟩ := fieldSlices f
  obtain ⟨b0, b1, b2, b3, b4⟩ := sameBits f ▸ byteSlices (decGroup f)
  simp only [← b0, ← b1, ← b2, ← b3, ← b4, ← s0, ← s1, ← s2, ← s3, ← s4, ← s5, ← s6, ← s7]
  simp (disch := decide) only [extractLsb'_extractLsb'_of_add_le,
    BitVec.extractLsb'_append_extractLsb'_eq_extractLsb', and_self]

/-! ## The decoder as the inverse of the encoder -/

/-- A header is formed from its own two bits (R50). -/
theorem headerOf_headerOp_headerPresent : ∀ header : BitVec 2,
    headerOf (headerOp header) (headerPresent header) = header := by decide

/-- The encoding of the command the decoder reads is the record it was read from (R50, R54). -/
theorem encodeCommand_of_decodeCommand {c : Command} {i : Instr} (h : decodeCommand c = .ok i) :
    encodeCommand i = c := by
  obtain ⟨header, len, payload⟩ := c
  have formed := headerOf_headerOp_headerPresent header
  simp only [decodeCommand] at h
  split at h
  case isFalse => cases h
  case isTrue =>
    cases op : headerOp header with
    | false =>
      obtain rfl : Instr.encode (headerPresent header) len payload = i := by simpa [op] using h
      simpa [encodeCommand, op] using formed
    | true =>
      obtain rfl : Instr.decode (headerPresent header) len payload = i := by simpa [op] using h
      simpa [encodeCommand, op] using formed

/-- Settles O2, one lemma for each direction. -/
theorem decodingInvertsEncoding : Obligations.DecodingInvertsEncoding :=
  ⟨fun _ wellFormed => decodeCommand_encodeCommand wellFormed,
   fun _ _ accepted => ⟨decodeCommand_wellFormed accepted, encodeCommand_of_decodeCommand accepted⟩⟩

/-! ## The four headers, and the one record that is no command -/

/-- Settles O1: each record is the encoding of a command of R50, whatever its operands. -/
theorem headersSelectTheOperation : Obligations.HeadersSelectTheOperation := by
  intro len payload
  exact ⟨decodeCommand_encodeCommand (i := .encode false len payload) rfl,
    decodeCommand_encodeCommand (i := .encode true payload.length payload) (encode_present_wellFormed payload),
    decodeCommand_encodeCommand (i := .decode false len payload) rfl,
    decodeCommand_encodeCommand (i := .decode true payload.length payload) (decode_present_wellFormed payload),
    by decide, by decide⟩

/-- Operand fields are no command of R50 exactly when the input is present and `len` miscounts the payload. -/
theorem operandsWellFormed_eq_false {present : Bool} {len : Nat} {payload : List (BitVec 8)} :
    operandsWellFormed present len payload = false ↔ present = true ∧ len ≠ payload.length := by
  simp [operandsWellFormed]

/-- The decoder errs exactly on the records that are no command of R50 (log 8). -/
theorem decodeCommand_eq_error {c : Command} {e : DecodeError} :
    decodeCommand c = .error e ↔ headerPresent c.header = true ∧ c.len ≠ c.payload.length := by
  rw [← operandsWellFormed_eq_false]
  cases fields : operandsWellFormed (headerPresent c.header) c.len c.payload with
  | true =>
    obtain ⟨i, accepted⟩ := (decodeCommand_isOk c).mpr fields
    simp [accepted]
  | false => simp [decodeCommand, fields]

/-- A step that takes a record the decoder rejects is refused (log 8). -/
theorem step_of_decodeCommand_error {s : State} {c : Command} {rest : List Input} {e : DecodeError}
    (waits : s.inputs = .command c :: rest) (rejected : decodeCommand c = .error e) :
    step s = .refused (decodeRefusal e) := by
  have taken : nextInput s = some (.command c, { s with inputs := rest }) := nextInput_eq_some.mpr ⟨waits, rfl⟩
  simp only [step, taken, rejected]

/-- Settles O3: `headerPresent` is header bit 0, and the decoder has one error only. -/
theorem onlyALengthMismatchIsRefused : Obligations.OnlyALengthMismatchIsRefused := by
  refine ⟨fun c => ⟨?_, fun mismatch => ⟨.lengthMismatch, decodeCommand_eq_error.mpr mismatch⟩⟩, ?_,
    fun i s illFormed => exec_illFormed illFormed s⟩
  · rintro ⟨e, rejected⟩
    exact decodeCommand_eq_error.mp rejected
  · intro s c rest waits present miscounted
    exact step_of_decodeCommand_error (e := .lengthMismatch) waits
      (decodeCommand_eq_error.mpr ⟨present, miscounted⟩)

/-! ## Null inputs -/

/-- Settles O16: null and empty inputs are commands of R50, so each is answered with its response. -/
theorem nullInputIsAnInvalidArgument : Obligations.NullInputIsAnInvalidArgument := by
  intro s len payload
  exact ⟨exec_wellFormed (i := .encode false len payload) rfl s,
    exec_wellFormed (i := .decode false len payload) rfl s,
    exec_wellFormed (i := .encode true 0 []) rfl s,
    exec_wellFormed (i := .decode true 0 []) rfl s⟩

end Sys2Proof.Machine

/-! PROOFS. Truncation and padding of ENCODE, how its text grows, empty and single inputs, and canonical texts
(40_encode.md R60 to R69). -/

namespace Sys2Proof.Machine

/-! ## Padding bits -/

/-- Beyond its last byte the bit string of an input is zeros (R33). -/
theorem byteBit_of_length_le {data : List Byte} {i : Nat} (h : 8 * data.length ≤ i) : byteBit data i = false := by
  have beyond : data.length ≤ i / 8 := by omega
  rw [byteBit, List.getD_eq_default _ _ beyond]
  exact BitVec.getLsbD_zero

/-- Beyond its last value the bit string of a value sequence is zeros (R34). -/
theorem valueBit_of_length_le {vs : List Value} {i : Nat} (h : 5 * vs.length ≤ i) : valueBit vs i = false := by
  have beyond : vs.length ≤ i / 5 := by omega
  rw [valueBit, List.getD_eq_default _ _ beyond]
  exact BitVec.getLsbD_zero

/-- Bit `j` of value `k` in the bit string, which counts from the most significant bit (R48). -/
theorem getElem_getLsbD_eq_valueBit (vs : List Value) {k j : Nat} (hk : k < vs.length) (hj : j < 5) :
    vs[k].getLsbD j = valueBit vs (5 * k + (4 - j)) := by
  have element : (5 * k + (4 - j)) / 5 = k := by omega
  have position : 4 - (5 * k + (4 - j)) % 5 = j := by omega
  rw [valueBit, element, position, List.getD_eq_getElem _ _ hk]

/-- A word is a multiple of `2^t` exactly when its `t` low bits are zero. -/
theorem toNat_mod_two_pow_eq_zero_iff {w : Nat} (b : BitVec w) (t : Nat) :
    b.toNat % 2 ^ t = 0 ↔ ∀ j < t, b.getLsbD j = false := by
  constructor
  · intro multiple j hj
    have bit : (b.toNat % 2 ^ t).testBit j = b.getLsbD j := by simp [Nat.testBit_mod_two_pow, hj, toNat_testBit]
    rw [← bit, multiple, Nat.zero_testBit]
  · intro zeros
    apply Nat.eq_of_testBit_eq
    intro j
    by_cases hj : j < t
    · simp [Nat.testBit_mod_two_pow, toNat_testBit, zeros j hj]
    · simp [Nat.testBit_mod_two_pow, hj]

/-- The last value is a multiple of `2^t` exactly when the bit string ends in `t` zeros. -/
theorem getLast?_mod_two_pow_iff (vs : List Value) {t : Nat} (ht : t ≤ 5) :
    (∀ v, vs.getLast? = some v → v.toNat % 2 ^ t = 0) ↔ ∀ i, 5 * vs.length - t ≤ i → valueBit vs i = false := by
  obtain rfl | ⟨front, last, rfl⟩ := vs.eq_nil_or_concat'
  · simp [valueBit_of_length_le]
  have bit (j : Nat) (hj : j < 5) : last.getLsbD j = valueBit (front ++ [last]) (5 * front.length + (4 - j)) := by
    simpa using getElem_getLsbD_eq_valueBit (front ++ [last]) (k := front.length) (by simp) hj
  simp only [List.getLast?_concat, Option.some.injEq, forall_eq', toNat_mod_two_pow_eq_zero_iff, List.length_append,
    List.length_singleton]
  constructor
  · intro zeros i hi
    by_cases inside : i < 5 * (front.length + 1)
    · have position : 5 * front.length + (4 - (5 * front.length + 4 - i)) = i := by omega
      rw [← position, ← bit _ (by omega)]
      exact zeros _ (by omega)
    · exact valueBit_of_length_le (by simp; omega)
  · intro zeros j hj
    rw [bit j (by omega)]
    exact zeros _ (by omega)

/-- The kept values hold the whole input, and zeros after it (R48, R65). -/
theorem valueBit_keptValues (data : List Byte) (i : Nat) : valueBit (keptValues data) i = byteBit data i := by
  by_cases inside : i < 5 * (keptValues data).length
  · exact keptValues_bit data inside
  · have len := keptValues_length data
    rw [valueBit_of_length_le (by omega), byteBit_of_length_le (by omega)]

/-- `enc` is the kept values through ENC_ROM. -/
theorem enc_eq_map_keptValues (x : List Byte) : enc x = (keptValues x).map (encRead encRomInit) :=
  (enc_eq x).trans (encodePayload_eq_map encRomInit x)

/-! ## Truncation -/

/-- The values truncation drops lie wholly beyond the input (R65). -/
theorem eq_zero_of_mem_drop_extractValues {data : List Byte} {v : Value}
    (h : v ∈ (extractValues data).drop ((8 * data.length + 4) / 5)) : v = 0 := by
  obtain ⟨k, hk, rfl⟩ := List.mem_iff_getElem.mp h
  apply BitVec.eq_of_getLsbD_eq
  intro j hj
  rw [List.getElem_drop, getElem_getLsbD_eq_valueBit _ _ hj, extractValues_bit, byteBit_of_length_le (by omega)]
  exact BitVec.getLsbD_zero.symm

/-- Settles O27: the lengths are arithmetic, and the dropped values hold bits beyond the input only. -/
theorem truncationDropsOnlyPadding : Obligations.TruncationDropsOnlyPadding := fun data =>
  ⟨extractValues_length data, enc_eq_map_keptValues data, by omega, by omega, fun k hk => by omega,
    fun _ dropped => eq_zero_of_mem_drop_extractValues dropped⟩

/-- The last kept value ends in as many zeros as the kept values have bits beyond the input (R67). -/
theorem keptValues_getLast?_mod {data : List Byte} {v : Value} (last : (keptValues data).getLast? = some v) :
    v.toNat % 2 ^ (5 * ((8 * data.length + 4) / 5) - 8 * data.length) = 0 := by
  refine (getLast?_mod_two_pow_iff (keptValues data) (by omega)).mpr (fun i hi => ?_) v last
  rw [keptValues_length] at hi
  rw [valueBit_keptValues, byteBit_of_length_le (by omega)]

/-- Settles O28: the number of padding bits is 2, 4, 1, 3 for the four residues. -/
theorem lastSymbolEndsInPaddingZeros : Obligations.LastSymbolEndsInPaddingZeros := by
  intro data nonempty
  have kept : keptValues data ≠ [] := by
    have positive := List.length_pos_of_ne_nil nonempty
    apply List.ne_nil_of_length_pos
    rw [keptValues_length]
    omega
  have last := List.getLast?_eq_some_getLast kept
  have multiple (t : Nat) (padding : 5 * ((8 * data.length + 4) / 5) - 8 * data.length = t) :
      ((keptValues data).getLast kept).toNat % 2 ^ t = 0 := padding ▸ keptValues_getLast?_mod last
  refine ⟨(keptValues data).getLast kept, by simp [enc_eq_map_keptValues, last], ?_⟩
  exact ⟨fun _ => multiple 2 (by omega), fun _ => multiple 4 (by omega), fun _ => multiple 1 (by omega),
    fun _ => multiple 3 (by omega)⟩

/-! ## Growing the input -/

/-- The first bits of a sequence do not depend on what follows it. -/
theorem byteBit_append_left {x : List Byte} (y : List Byte) {i : Nat} (h : i < 8 * x.length) :
    byteBit (x ++ y) i = byteBit x i := by
  have inside : i / 8 < x.length := by omega
  rw [byteBit, byteBit, List.getD_append _ _ _ _ inside]

/-- The symbols that hold bits of `x` only do not depend on what follows `x`. -/
theorem enc_append_take (x y : List Byte) {k : Nat} (h : 5 * k ≤ 8 * x.length) :
    (enc (x ++ y)).take k = (enc x).take k := by
  have same : (keptValues (x ++ y)).take k = (keptValues x).take k := by
    have len : ((keptValues (x ++ y)).take k).length = k := by
      rw [List.length_take, keptValues_length, List.length_append]
      omega
    have len' : ((keptValues x).take k).length = k := by
      rw [List.length_take, keptValues_length]
      omega
    refine values_ext (len.trans len'.symm) fun i hi => ?_
    rw [len] at hi
    rw [valueBit_take _ _ _ hi, valueBit_take _ _ _ hi, valueBit_keptValues, valueBit_keptValues,
      byteBit_append_left y (by omega)]
  simp only [enc_eq_map_keptValues, ← List.map_take, same]

theorem enc_length (x : List Byte) : (enc x).length = (8 * x.length + 4) / 5 := by
  rw [enc_eq_map_keptValues, List.length_map, keptValues_length]

/-- Settles O29: only the last symbol can hold a bit beyond `x`, and none does when 5 divides the length. -/
theorem encodePrefixLaw : Obligations.EncodePrefixLaw := by
  intro x y
  have len := enc_length x
  refine ⟨?_, fun whole => ?_⟩
  · rw [List.dropLast_eq_take, ← enc_append_take x y (by omega)]
    exact List.take_prefix _ _
  · rw [← List.take_length (l := enc x), ← enc_append_take x y (by omega)]
    exact List.take_prefix _ _

/-! ## Canonical texts -/

/-- The lookup phase reads a text of canonical symbols back as its values (R20 (a)). -/
theorem decRead_map_encRead (vs : List Value) :
    (vs.map (encRead encRomInit)).map (decRead decRomInit) = vs.map some := by
  rw [List.map_map]
  exact List.map_congr_left fun v _ => decRead_encRead v

/-- An accepted text decodes to the kept bytes of its values. -/
theorem dec_eq_keptBytes {s : List Chr} {vs : List Value} (h : s.map (decRead decRomInit) = vs.map some) :
    dec s = some (keptBytes vs) := by
  rw [dec_eq, decodePayload_eq_keptBytes h]
  rfl

/-- Truncating what DECODE packs undoes the padding of ENCODE. -/
theorem keptBytes_keptValues (x : List Byte) : keptBytes (keptValues x) = x := by
  have len : (keptBytes (keptValues x)).length = x.length := by
    rw [keptBytes_length, keptValues_length]
    omega
  exact bytes_ext len fun i hi => (keptBytes_bit _ hi).trans (valueBit_keptValues x i)

/-- Decoding inverts encoding (R100). -/
theorem dec_enc (x : List Byte) : dec (enc x) = some x := by
  rw [enc_eq_map_keptValues, dec_eq_keptBytes (decRead_map_encRead _), keptBytes_keptValues]

/-- A text has canonical symbols only exactly when it is some values through ENC_ROM. -/
theorem forall_canonicalChr_iff {s : List Chr} :
    (∀ c ∈ s, canonicalChr c = true) ↔ ∃ vs : List Value, vs.map (encRead encRomInit) = s := by
  simp only [canonicalChr_iff]
  exact (Set.ext_iff.mp (Set.range_list_map (encRead encRomInit)) s).symm

/-- R101's conditions on the text of some values: a length ENCODE produces, and no bit set beyond the decoded bytes. -/
theorem canonicalText_map_encRead (vs : List Value) :
    CanonicalText (vs.map (encRead encRomInit)) ↔
      vs.length % 8 ∈ [0, 2, 4, 5, 7] ∧ ∀ i, 8 * (5 * vs.length / 8) ≤ i → valueBit vs i = false := by
  have lastValue : (∀ c v, (vs.map (encRead encRomInit)).getLast? = some c → decRead decRomInit c = some v →
      v.toNat % 2 ^ (5 * vs.length % 8) = 0) ↔
      ∀ v, vs.getLast? = some v → v.toNat % 2 ^ (5 * vs.length % 8) = 0 := by
    simp only [List.getLast?_map, Option.map_eq_some_iff]
    constructor
    · exact fun zeros v last => zeros _ v ⟨v, last, rfl⟩ (decRead_encRead v)
    · rintro zeros _ v ⟨w, last, rfl⟩ entry
      exact zeros v (Option.some.inj ((decRead_encRead w).symm.trans entry) ▸ last)
  have symbols := forall_canonicalChr_iff.mpr ⟨vs, rfl⟩
  rw [CanonicalText, and_iff_right symbols, List.length_map, lastValue]
  refine and_congr_right fun residue => ?_
  have discarded : 5 * vs.length % 8 ≤ 5 := by
    simp only [List.mem_cons, List.not_mem_nil, or_false] at residue
    omega
  have decoded : 5 * vs.length - 5 * vs.length % 8 = 8 * (5 * vs.length / 8) := by omega
  rw [getLast?_mod_two_pow_iff vs discarded, decoded]

/-- ENCODE's text meets R101's conditions. -/
theorem canonicalText_enc (x : List Byte) : CanonicalText (enc x) := by
  have len := keptValues_length x
  rw [enc_eq_map_keptValues, canonicalText_map_encRead]
  refine ⟨?_, fun i hi => ?_⟩
  · simp only [List.mem_cons, List.not_mem_nil, or_false]
    omega
  · rw [valueBit_keptValues, byteBit_of_length_le (by omega)]

/-- Values with R101's conditions are the ones ENCODE keeps for the bytes DECODE packs from them. -/
theorem keptValues_keptBytes {vs : List Value} (residue : vs.length % 8 ∈ [0, 2, 4, 5, 7])
    (zeros : ∀ i, 8 * (5 * vs.length / 8) ≤ i → valueBit vs i = false) : keptValues (keptBytes vs) = vs := by
  have bytes := keptBytes_length vs
  have len : (keptValues (keptBytes vs)).length = vs.length := by
    simp only [List.mem_cons, List.not_mem_nil, or_false] at residue
    rw [keptValues_length, bytes]
    omega
  refine values_ext len fun i _ => ?_
  rw [valueBit_keptValues]
  by_cases inside : i < 8 * (keptBytes vs).length
  · exact keptBytes_bit vs inside
  · rw [byteBit_of_length_le (by omega), zeros i (by omega)]

/-- A canonical text is the encoding of what it decodes to (R101). -/
theorem eq_enc_of_canonicalText {s : List Chr} {x : List Byte} (canonical : CanonicalText s) (decodes : dec s = some x) :
    s = enc x := by
  obtain ⟨vs, rfl⟩ := forall_canonicalChr_iff.mp canonical.1
  obtain ⟨residue, zeros⟩ := (canonicalText_map_encRead vs).mp canonical
  obtain rfl : keptBytes vs = x := by simpa [dec_eq_keptBytes (decRead_map_encRead vs)] using decodes
  rw [enc_eq_map_keptValues, keptValues_keptBytes residue zeros]

/-- Canonical symbols are accepted (R20 (a)). -/
theorem acceptedChr_of_canonicalChr {c : Chr} (h : canonicalChr c = true) : acceptedChr c = true := by
  obtain ⟨v, rfl⟩ := canonicalChr_iff.mp h
  rw [acceptedChr, decRead_encRead]
  rfl

/-- Settles O36: DECODE is a left inverse of ENCODE, and a canonical text is determined by its decoding. -/
theorem everyByteSequenceHasOneCanonicalText : Obligations.EveryByteSequenceHasOneCanonicalText := by
  refine ⟨fun x y same => ?_, fun x => ?_⟩
  · exact Option.some.inj ((dec_enc x).symm.trans (same ▸ dec_enc y))
  · have canonical := canonicalText_enc x
    exact ⟨fun c hc => acceptedChr_of_canonicalChr (canonical.1 c hc), canonical, dec_enc x,
      fun s hs decodes => eq_enc_of_canonicalText hs decodes⟩

/-! ## Empty and single inputs -/

/-- One value has too few bits for a byte (R87). -/
theorem keptBytes_singleton (v : Value) : keptBytes [v] = [] :=
  List.eq_nil_of_length_eq_zero (by simp [keptBytes_length])

/-- A text of one accepted character decodes to nothing (R87). -/
theorem decodePayload_singleton_ok {rom : Vector (Option Value) 256} {c : Chr} {v : Value}
    (h : decRead rom c = some v) : decodePayload rom [c] = .ok [] := by
  have values : [c].map (decRead rom) = [v].map some := by simp [h]
  rw [decodePayload_eq_keptBytes values, keptBytes_singleton]

/-- A text of one absent character fails with it: the lookup comes before any length (R81). -/
theorem decodePayload_singleton_error {rom : Vector (Option Value) 256} {c : Chr} (h : decRead rom c = none) :
    decodePayload rom [c] = .error (.invalidSymbol c) :=
  decodePayload_eq_error.mpr (lookupAll_eq_error.mpr ⟨c, by simp [h], rfl⟩)

/-- Settles O34: all these inputs are commands of R50, and a single character has a value or has none. -/
theorem emptyAndSingleInputs : Obligations.EmptyAndSingleInputs := by
  refine ⟨answer_wellFormed (i := .encode true 0 []) rfl, answer_wellFormed (i := .decode true 0 []) rfl, fun c => ?_⟩
  have response := answer_wellFormed (decode_present_wellFormed [c])
  refine response.trans (congrArg some ?_)
  cases entry : decRead decRomInit c with
  | some v => simp [tableResponse, decodePayload_singleton_ok entry, resultResponse, okResponse, acceptedChr, entry]
  | none =>
    simp [tableResponse, decodePayload_singleton_error entry, resultResponse, failureResponse, failureStatus,
      failureBadChar, acceptedChr, entry]

end Sys2Proof.Machine

/-! PROOFS. The character DECODE reports, the input bits it does not examine, and texts that decode alike (41_decode.md
R84 to R92). -/

namespace Sys2Proof.Machine

/-! ## The first absent character -/

/-- A character is absent when DEC_ROM has no value for it (R18). -/
theorem acceptedChr_eq_false_iff {c : Chr} : acceptedChr c = false ↔ decRead decRomInit c = none := by
  simp [acceptedChr]

/-- DECODE fails with the first absent character, whatever follows it (R84). -/
theorem decodePayload_of_first_absent {before after : List Chr} {c : Chr} (accepted : AcceptedText before)
    (absent : acceptedChr c = false) :
    decodePayload decRomInit (before ++ c :: after) = .error (.invalidSymbol c) := by
  have first : (before ++ c :: after).find? (fun a => (decRead decRomInit a).isNone) = some c := by
    refine List.find?_eq_some_iff_append.mpr ⟨?_, before, after, rfl, fun a ha => ?_⟩
    · simp [acceptedChr_eq_false_iff.mp absent]
    · simpa [acceptedChr] using accepted a ha
  exact decodePayload_eq_error.mpr (lookupAll_eq_error.mpr ⟨c, first, rfl⟩)

/-- Over the constant DEC_ROM the response names the first absent character, with no payload (R116, R121). -/
theorem tableResponse_of_first_absent (encRom : Vector Chr 32) {before : List Chr} (after : List Chr) {c : Chr}
    (accepted : AcceptedText before) (absent : acceptedChr c = false) :
    tableResponse encRom decRomInit (.decode true (before ++ c :: after).length (before ++ c :: after)) =
      ⟨.invalidSymbol, 0, [], c⟩ := by
  rw [tableResponse, decodePayload_of_first_absent accepted absent]
  rfl

/-- Settles O15: the command completes with its response, which names the first absent character. -/
theorem decodeReportsTheFirstAbsentCharacter : Obligations.DecodeReportsTheFirstAbsentCharacter := by
  intro s before c after hdec accepted absent
  have response := tableResponse_of_first_absent s.encRom after accepted absent
  rw [← hdec] at response
  rw [exec_wellFormed (decode_present_wellFormed _), response]
  rfl

/-- The answer to a text alone names its first absent character (R84, R116). -/
theorem answer_of_first_absent {before after : List Chr} {c : Chr} (accepted : AcceptedText before)
    (absent : acceptedChr c = false) :
    answer (.decode true (before ++ c :: after).length (before ++ c :: after)) =
      some ⟨.invalidSymbol, 0, [], c⟩ := by
  rw [answer_wellFormed (decode_present_wellFormed _), tableResponse_of_first_absent _ _ accepted absent]

/-- A text that holds an absent character has a first one. -/
theorem exists_first_absent {s : List Chr} {c : Chr} (held : c ∈ s) (absent : acceptedChr c = false) :
    ∃ before d after, s = before ++ d :: after ∧ AcceptedText before ∧ acceptedChr d = false := by
  have found : (s.find? fun a => !acceptedChr a).isSome := List.find?_isSome.mpr ⟨c, held, by simp [absent]⟩
  obtain ⟨d, first⟩ := Option.isSome_iff_exists.mp found
  obtain ⟨absent', before, after, parts, accepted⟩ := List.find?_eq_some_iff_append.mp first
  exact ⟨before, d, after, parts, by simpa using accepted, by simpa using absent'⟩

/-- White space, line breaks, the hyphen, `=`, NUL and the bytes of a byte-order mark are absent (R92). -/
theorem acceptedChr_separator : ∀ c ∈ [0x20#8, 0x09#8, 0x0A#8, 0x0B#8, 0x0C#8, 0x0D#8, 0x2D#8, 0x3D#8, 0x00#8, 0xEF#8,
    0xBB#8, 0xBF#8], acceptedChr c = false := by decide

/-- Settles O39: each listed code is absent, so the text has a first absent character, and that one is reported. -/
theorem nothingIsSkippedOrTrimmed : Obligations.NothingIsSkippedOrTrimmed := by
  intro s c held listed
  obtain ⟨before, d, after, rfl, accepted, absent⟩ := exists_first_absent held (acceptedChr_separator c listed)
  exact ⟨_, answer_of_first_absent accepted absent, rfl, rfl, rfl, by simp, absent⟩

/-! ## Bits that are not examined -/

/-- The kept bytes depend on how many they are and on the bits that fill them (R86, R88). -/
theorem keptBytes_congr {vs ws : List Value} (len : 5 * vs.length / 8 = 5 * ws.length / 8)
    (bits : ∀ i, i < 8 * (5 * vs.length / 8) → valueBit vs i = valueBit ws i) : keptBytes vs = keptBytes ws := by
  have same : (keptBytes vs).length = (keptBytes ws).length := by rw [keptBytes_length, keptBytes_length, len]
  refine bytes_ext same fun i hi => ?_
  rw [keptBytes_bit vs hi, keptBytes_bit ws (same ▸ hi)]
  exact bits i (keptBytes_length vs ▸ hi)

/-- Two texts whose values fill the same bytes with the same bits decode alike (R88). -/
theorem dec_congr_of_bits {s u : List Chr} {vs ws : List Value} (len : s.length = u.length)
    (hs : s.map (decRead decRomInit) = vs.map some) (hu : u.map (decRead decRomInit) = ws.map some)
    (bits : ∀ i, i < 8 * (5 * s.length / 8) → valueBit vs i = valueBit ws i) :
    dec s = some (keptBytes vs) ∧ dec u = some (keptBytes vs) := by
  have lenS : vs.length = s.length := lookupAll_length (lookupAll_eq_ok.mpr hs)
  have lenU : ws.length = u.length := lookupAll_length (lookupAll_eq_ok.mpr hu)
  have same : keptBytes vs = keptBytes ws := keptBytes_congr (by rw [lenS, lenU, len]) (lenS ▸ bits)
  exact ⟨dec_eq_keptBytes hs, same ▸ dec_eq_keptBytes hu⟩

/-- Settles O37: bits beyond the last whole byte fill no kept byte. -/
theorem discardedBitsAreNotExamined : Obligations.DiscardedBitsAreNotExamined :=
  ⟨fun _ _ vs _ len hs hu bits => ⟨keptBytes vs, dec_congr_of_bits len hs hu bits⟩,
    by decide, by decide, by decide, by decide⟩

/-! ## A last character that completes no byte -/

/-- The lookup phase gives an accepted text its values (R84). -/
theorem exists_values_of_acceptedText {s : List Chr} (accepted : AcceptedText s) :
    ∃ vs : List Value, s.map (decRead decRomInit) = vs.map some := by
  cases found : lookupAll decRomInit s with
  | ok vs => exact ⟨vs, lookupAll_eq_ok.mp found⟩
  | error f =>
    obtain ⟨c, first, -⟩ := lookupAll_eq_error.mp found
    have absent : acceptedChr c = false := acceptedChr_eq_false_iff.mpr (by simpa using List.find?_some first)
    simp [accepted c (List.mem_of_find?_eq_some first)] at absent

/-- The first bits of a value sequence do not depend on what follows it. -/
theorem valueBit_append_left {vs : List Value} (ws : List Value) {i : Nat} (h : i < 5 * vs.length) :
    valueBit (vs ++ ws) i = valueBit vs i := by
  have inside : i / 5 < vs.length := by omega
  rw [valueBit, valueBit, List.getD_append _ _ _ _ inside]

/-- A last value that completes no byte adds nothing to the kept bytes (R89). -/
theorem keptBytes_concat (vs : List Value) (v : Value) (residue : (vs.length + 1) % 8 ∈ [1, 3, 6]) :
    keptBytes (vs ++ [v]) = keptBytes vs := by
  have whole : 5 * (vs ++ [v]).length / 8 = 5 * vs.length / 8 := by
    simp only [List.mem_cons, List.not_mem_nil, or_false] at residue
    rw [List.length_append, List.length_singleton]
    omega
  exact keptBytes_congr whole fun i hi => valueBit_append_left [v] (by omega)

/-- Settles O38: an accepted last character adds a value that completes no byte, and an absent one is the first. -/
theorem lengthsEncodeNeverProducesAreAccepted : Obligations.LengthsEncodeNeverProducesAreAccepted := by
  intro s c accepted residue
  refine ⟨fun last => ?_, fun absent => answer_of_first_absent accepted absent⟩
  obtain ⟨vs, values⟩ := exists_values_of_acceptedText accepted
  obtain ⟨v, entry⟩ := Option.isSome_iff_exists.mp last
  have len : vs.length = s.length := lookupAll_length (lookupAll_eq_ok.mpr values)
  have extended : (s ++ [c]).map (decRead decRomInit) = (vs ++ [v]).map some := by simp [values, entry]
  exact ⟨keptBytes vs, dec_eq_keptBytes values,
    (dec_eq_keptBytes extended).trans (congrArg some (keptBytes_concat vs v (len ▸ residue)))⟩

/-! ## Texts that decode alike -/

/-- Accepted texts with the same DEC_ROM values decode alike (R90). -/
theorem dec_congr_of_values {s u : List Chr} (accepted : AcceptedText s)
    (same : s.map (decRead decRomInit) = u.map (decRead decRomInit)) : dec s = dec u := by
  obtain ⟨vs, values⟩ := exists_values_of_acceptedText accepted
  rw [dec_eq_keptBytes values, dec_eq_keptBytes (same ▸ values)]

/-- Settles O40: a change of case or glyph keeps the values, and the other two pairs are cases of O37 and O38. -/
theorem decodeIsNotInjective : Obligations.DecodeIsNotInjective := by
  obtain ⟨-, decCZ, decCW, decCR, -⟩ := discardedBitsAreNotExamined
  obtain ⟨d, short, long⟩ := (lengthsEncodeNeverProducesAreAccepted [0x43, 0x52] 0x30 (by decide) (by decide)).1
    (by decide)
  exact ⟨dec_congr_of_values (by decide) (by decide), dec_congr_of_values (by decide) (by decide),
    decCZ.trans decCW.symm, long.trans short.symm, decCR⟩

end Sys2Proof.Machine

/-! PROOFS. The laws of 42_codec_laws.md: every command is answered and no run of them stops, ENCODE and DECODE undo
each other, and which texts decode alike or not at all (R100 to R110). -/

namespace Sys2Proof.Machine

/-! ## Steps and runs on commands and resets -/

/-- With nothing waiting a step changes nothing (log 11). -/
theorem step_of_inputs_eq_nil {s : State} (idle : s.inputs = []) : step s = .next s := by
  simp only [step, nextInput_eq_none.mpr idle]

/-- The step that takes a reset restores the tables and answers nothing (R135, R136). -/
theorem step_of_inputs_eq_reset {s : State} {p : Option Command} {rest : List Input}
    (waits : s.inputs = .reset p :: rest) : step s = .next (applyReset { s with inputs := rest }) := by
  have taken : nextInput s = some (.reset p, { s with inputs := rest }) := nextInput_eq_some.mpr ⟨waits, rfl⟩
  simp only [step, taken]

/-- The step that takes a command the decoder accepts answers it (R139, R140): the record is the encoding of what it
decodes to. -/
theorem step_of_decodeCommand_ok {s : State} {c : Command} {rest : List Input} {i : Instr}
    (waits : s.inputs = .command c :: rest) (accepted : decodeCommand c = .ok i) :
    step s = .next (emit (tableResponse s.encRom s.decRom i) { s with inputs := rest }) := by
  obtain rfl := encodeCommand_of_decodeCommand accepted
  exact step_encodeCommand (decodeCommand_wellFormed accepted) waits

/-- Progress: on commands and resets a step answers a state and takes at most the oldest input. -/
theorem exists_step_next {s : State} (formed : InputsWellFormed s) :
    ∃ t : State, step s = .next t ∧ t.inputs = s.inputs.tail := by
  cases waits : s.inputs with
  | nil => exact ⟨s, step_of_inputs_eq_nil waits, waits⟩
  | cons input rest =>
    cases input with
    | reset p => exact ⟨_, step_of_inputs_eq_reset waits, rfl⟩
    | command c =>
      have fields : inputWellFormed (.command c) = true := formed _ (waits ▸ List.mem_cons_self)
      obtain ⟨i, accepted⟩ := (decodeCommand_isOk c).mpr fields
      exact ⟨_, step_of_decodeCommand_ok waits accepted, rfl⟩

/-- Settles O41: a step never stops, and what waits after it waited before it. -/
theorem stepNeverStopsOnCommands : Obligations.StepNeverStopsOnCommands := by
  intro s formed
  obtain ⟨t, hstep, inputs⟩ := exists_step_next formed
  exact ⟨t, hstep, fun a ha => formed a (List.mem_of_mem_tail (inputs ▸ ha))⟩

/-- Settles O23, by induction on the length of the run. -/
theorem noRunOfCommandsStops : Obligations.NoRunOfCommandsStops := by
  intro s k
  induction k generalizing s with
  | zero => exact fun formed => ⟨s, run_zero s, formed⟩
  | succ k ih =>
    intro formed
    obtain ⟨t, hstep, formed'⟩ := stepNeverStopsOnCommands s formed
    obtain ⟨u, hrun, formed''⟩ := ih t formed'
    exact ⟨u, (run_succ k hstep).trans hrun, formed''⟩

/-- Settles O18: the response reads nothing of the state but its tables. -/
theorem responseDependsOnTheCommandOnly : Obligations.ResponseDependsOnTheCommandOnly := by
  intro i wellFormed
  refine ⟨tableResponse encRomInit decRomInit i, answer_wellFormed wellFormed, ?_⟩
  rintro s ⟨henc, hdec⟩
  have response := exec_wellFormed wellFormed s
  rw [henc, hdec] at response
  exact response

/-! ## ENCODE and DECODE undo each other -/

/-- DECODE's payload for the encoding of `x` is `x` (R100). -/
theorem decodePayload_enc (x : List Byte) : decodePayload decRomInit (enc x) = .ok x := by
  rw [enc_eq_map_keptValues, decodePayload_eq_keptBytes (decRead_map_encRead _), keptBytes_keptValues]

/-- The step that takes `ENCODE x` answers OK with the encoding of `x` (R64). -/
theorem step_encode {s : State} {x : List Byte} {rest : List Input} (henc : s.encRom = encRomInit)
    (waits : s.inputs = .command (encodeCommand (.encode true x.length x)) :: rest) :
    step s = .next (emit (okResponse (enc x)) { s with inputs := rest }) := by
  rw [step_encodeCommand (encode_present_wellFormed x) waits, henc, enc_eq]
  rfl

/-- The step that takes DECODE of the encoding of `x` answers OK with `x` (R100). -/
theorem step_decode_enc {s : State} {x : List Byte} {rest : List Input} (hdec : s.decRom = decRomInit)
    (waits : s.inputs = .command (encodeCommand (.decode true (enc x).length (enc x))) :: rest) :
    step s = .next (emit (okResponse x) { s with inputs := rest }) := by
  rw [step_encodeCommand (decode_present_wellFormed (enc x)) waits, hdec, tableResponse, decodePayload_enc]
  rfl

/-- Settles O24: the first step answers `enc x` and keeps DEC_ROM, the second decodes it. -/
theorem decodeOfEncodeIsTheInput : Obligations.DecodeOfEncodeIsTheInput := by
  rintro s x rest ⟨henc, hdec⟩ waits
  refine ⟨enc x, emit (okResponse (enc x)) { s with inputs := rest }, step_encode henc waits, rfl, fun rest' => ?_⟩
  exact step_decode_enc (rest := rest') hdec rfl

/-- An accepted text decodes (R105). -/
theorem exists_dec_of_acceptedText {s : List Chr} (accepted : AcceptedText s) : ∃ d, dec s = some d := by
  obtain ⟨vs, values⟩ := exists_values_of_acceptedText accepted
  exact ⟨keptBytes vs, dec_eq_keptBytes values⟩

/-- Settles O25: encodings are canonical, and a canonical text is the encoding of its decoding. -/
theorem encodeOfDecodeIsTheTextIffCanonical : Obligations.EncodeOfDecodeIsTheTextIffCanonical := by
  intro s accepted
  obtain ⟨d, decodes⟩ := exists_dec_of_acceptedText accepted
  refine ⟨d, decodes, ⟨fun same => same ▸ canonicalText_enc d, fun canonical => ?_⟩, dec_enc d⟩
  exact (eq_enc_of_canonicalText canonical decodes).symm

/-! ## Lengths, prefixes, symbols -/

/-- A decoded text of `m` characters has `floor(5m/8)` bytes (R86, R102). -/
theorem dec_length {s : List Chr} {d : List Byte} (accepted : AcceptedText s) (decodes : dec s = some d) :
    d.length = 5 * s.length / 8 := by
  obtain ⟨vs, values⟩ := exists_values_of_acceptedText accepted
  obtain rfl : keptBytes vs = d := Option.some.inj ((dec_eq_keptBytes values).symm.trans decodes)
  rw [keptBytes_length, lookupAll_length (lookupAll_eq_ok.mpr values)]

/-- Settles O26: the codec's lengths, and arithmetic. -/
theorem lengthLaws : Obligations.LengthLaws := by
  refine ⟨enc_length, fun s accepted => ?_, fun n => by omega, fun m => ⟨by omega, ?_⟩⟩
  · obtain ⟨d, decodes⟩ := exists_dec_of_acceptedText accepted
    exact ⟨d, decodes, dec_length accepted decodes⟩
  · simp only [List.mem_cons, List.not_mem_nil, or_false]
    omega

/-- Further values leave the kept bytes of the first ones in place (R110). -/
theorem keptBytes_prefix_append (vs ws : List Value) : keptBytes vs <+: keptBytes (vs ++ ws) := by
  have len := keptBytes_length vs
  have len' := keptBytes_length (vs ++ ws)
  rw [List.length_append] at len'
  have same : keptBytes vs = (keptBytes (vs ++ ws)).take (keptBytes vs).length := by
    refine bytes_ext (by rw [List.length_take]; omega) fun i hi => ?_
    rw [byteBit_take _ _ _ hi, keptBytes_bit vs hi, keptBytes_bit _ (by omega), valueBit_append_left ws (by omega)]
  exact same ▸ List.take_prefix _ _

/-- Settles O30: the values of the whole text are those of its two parts in sequence. -/
theorem decodePrefixLaw : Obligations.DecodePrefixLaw := by
  intro s u accepted
  obtain ⟨acceptedS, acceptedU⟩ := List.forall_mem_append.mp accepted
  obtain ⟨vs, values⟩ := exists_values_of_acceptedText acceptedS
  obtain ⟨ws, values'⟩ := exists_values_of_acceptedText acceptedU
  have whole : (s ++ u).map (decRead decRomInit) = (vs ++ ws).map some := by
    rw [List.map_append, List.map_append, values, values']
  exact ⟨keptBytes vs, keptBytes (vs ++ ws), dec_eq_keptBytes values, dec_eq_keptBytes whole,
    keptBytes_prefix_append vs ws⟩

/-- No entry of ENC_ROM is `I`, `L`, `O`, `U`, `=` or a lowercase letter (R15). -/
theorem encRead_not_excluded : ∀ v : Value,
    encRead encRomInit v ∉ [0x49#8, 0x4C#8, 0x4F#8, 0x55#8, 0x3D#8] ∧
    ¬ (0x61 ≤ encRead encRomInit v ∧ encRead encRomInit v ≤ 0x7A) := by decide

/-- Settles O35: every character of an encoding is an entry of ENC_ROM. -/
theorem encodeEmitsCanonicalSymbolsOnly : Obligations.EncodeEmitsCanonicalSymbolsOnly := by
  intro x c emitted
  have canonical : canonicalChr c = true := (canonicalText_enc x).1 c emitted
  obtain ⟨v, rfl⟩ := canonicalChr_iff.mp canonical
  exact ⟨canonical, encRead_not_excluded v⟩

/-! ## Case and aliases -/

/-- A text with the values of an accepted text decodes as it does (R90). -/
theorem exists_dec_congr {s u : List Chr} (accepted : AcceptedText s)
    (same : s.map (decRead decRomInit) = u.map (decRead decRomInit)) : ∃ d, dec s = some d ∧ dec u = some d := by
  obtain ⟨d, decodes⟩ := exists_dec_of_acceptedText accepted
  exact ⟨d, decodes, dec_congr_of_values accepted same ▸ decodes⟩

/-- Mapping each character to one with its value keeps the values of a text. -/
theorem map_decRead_map {f : Chr → Chr} (keeps : ∀ c, decRead decRomInit (f c) = decRead decRomInit c)
    (s : List Chr) : s.map (decRead decRomInit) = (s.map f).map (decRead decRomInit) := by
  rw [List.map_map]
  exact List.map_congr_left fun c _ => (keeps c).symm

/-- Upper case neither adds nor removes an absent character (R20 (d)). -/
theorem acceptedChr_toUpper (c : Chr) : acceptedChr (toUpper c) = acceptedChr c := by
  rw [acceptedChr, decRead_toUpper, acceptedChr]

/-- Settles O31: both changes of case keep every value, so they keep which character is the first absent one. -/
theorem caseDoesNotMatter : Obligations.CaseDoesNotMatter := by
  refine ⟨fun s accepted => ?_, ?_⟩
  · obtain ⟨d, decodes⟩ := exists_dec_of_acceptedText accepted
    exact ⟨d, decodes, dec_congr_of_values accepted (map_decRead_map decRead_toUpper s) ▸ decodes,
      dec_congr_of_values accepted (map_decRead_map decRead_toLower s) ▸ decodes⟩
  · rintro before c after _ rfl accepted absent
    have accepted' : AcceptedText (before.map toUpper) :=
      List.forall_mem_map.mpr fun a ha => (acceptedChr_toUpper a).trans (accepted a ha)
    have upper := answer_of_first_absent (after := after.map toUpper) accepted' ((acceptedChr_toUpper c).trans absent)
    rw [← List.map_cons, ← List.map_append, List.length_map] at upper
    exact ⟨answer_of_first_absent accepted absent, upper⟩

/-- `O`, `o` and `0` have value 0, and `I`, `i`, `L`, `l` and `1` have value 1 (R17, R18). -/
theorem decRead_aliases :
    (∀ c ∈ [0x4F#8, 0x6F#8, 0x30#8], decRead decRomInit c = some 0) ∧
    ∀ c ∈ [0x49#8, 0x69#8, 0x4C#8, 0x6C#8, 0x31#8], decRead decRomInit c = some 1 := by decide

/-- Characters with one value are interchangeable at any place of an accepted text (R104). -/
theorem exists_dec_of_same_value {before after : List Chr} {a b : Chr} {v : Value}
    (accepted : AcceptedText (before ++ after)) (ha : decRead decRomInit a = some v)
    (hb : decRead decRomInit b = some v) :
    ∃ d, dec (before ++ a :: after) = some d ∧ dec (before ++ b :: after) = some d := by
  obtain ⟨acceptedBefore, acceptedAfter⟩ := List.forall_mem_append.mp accepted
  have acceptedA : acceptedChr a = true := by rw [acceptedChr, ha, Option.isSome_some]
  refine exists_dec_congr ?_ (by simp [ha, hb])
  exact List.forall_mem_append.mpr ⟨acceptedBefore, List.forall_mem_cons.mpr ⟨acceptedA, acceptedAfter⟩⟩

/-- Settles O32: texts decode by their values, and each listed set has one value. -/
theorem aliasesDoNotMatter : Obligations.AliasesDoNotMatter := by
  obtain ⟨zero, one⟩ := decRead_aliases
  refine ⟨fun s u accepted same => exists_dec_congr accepted same, ?_, by decide, by decide⟩
  rintro before after a b accepted (⟨ha, hb⟩ | ⟨ha, hb⟩)
  · exact exists_dec_of_same_value accepted (zero a ha) (zero b hb)
  · exact exists_dec_of_same_value accepted (one a ha) (one b hb)

/-! ## Texts that do not decode -/

/-- A text that is not accepted has a first absent character. -/
theorem exists_first_absent_of_not_acceptedText {s : List Chr} (rejected : ¬ AcceptedText s) :
    ∃ before c after, s = before ++ c :: after ∧ AcceptedText before ∧ acceptedChr c = false := by
  obtain ⟨c, held, absent⟩ : ∃ c ∈ s, acceptedChr c = false := by simpa using rejected
  exact exists_first_absent held absent

/-- A text that is not accepted decodes to nothing (R105). -/
theorem dec_eq_none_of_not_acceptedText {s : List Chr} (rejected : ¬ AcceptedText s) : dec s = none := by
  obtain ⟨before, c, after, rfl, accepted, absent⟩ := exists_first_absent_of_not_acceptedText rejected
  rw [dec_eq, decodePayload_of_first_absent accepted absent]
  rfl

/-- Settles O33: a text is accepted or has a first absent character, and that one is found and reported. -/
theorem decodeIsOkIffEveryCharacterIsAccepted : Obligations.DecodeIsOkIffEveryCharacterIsAccepted := by
  refine ⟨fun s => ⟨?_, exists_dec_of_acceptedText⟩, fun s rejected => ?_, ?_⟩
  · rintro ⟨d, decodes⟩
    by_contra rejected
    simp [dec_eq_none_of_not_acceptedText rejected] at decodes
  · obtain ⟨before, c, after, rfl, accepted, absent⟩ := exists_first_absent_of_not_acceptedText rejected
    have first : (before ++ c :: after).find? (fun a => !acceptedChr a) = some c :=
      List.find?_eq_some_iff_append.mpr ⟨by simp [absent], before, after, rfl, by simpa using accepted⟩
    exact ⟨c, first, answer_of_first_absent accepted absent⟩
  · exact answer_of_first_absent (before := []) (after := []) (List.forall_mem_nil _) (by decide)

end Sys2Proof.Machine

/-! PROOFS. A failed operation and the command after it (60_exceptions.md R120, R122). -/

namespace Sys2Proof.Machine

/-- A response given earlier does not change what a well-formed instruction answers, nor anything else it leaves. -/
theorem exec_emit {i : Instr} (wellFormed : i.wellFormed = true) (r : Response) (s : State) :
    exec i (emit r s) = .next (emit (tableResponse s.encRom s.decRom i) (emit r s)) := by
  rw [exec_wellFormed wellFormed, emit_encRom, emit_decRom]

/-- Settles O19: an instruction that completes, failed or not, has only given a response, and later responses read the
tables alone. -/
theorem failureLeavesNothingBehind : Obligations.FailureLeavesNothingBehind := by
  rintro f i s t completes - wellFormed
  obtain ⟨-, rfl⟩ := exec_next completes
  exact ⟨tableResponse s.encRom s.decRom i, exec_wellFormed wellFormed s, exec_emit wellFormed _ s⟩

end Sys2Proof.Machine

/-! PROOFS. One step: the decoded command, the idle step and the reset (70_reset_and_hazards.md R135, R136, R139,
R140). -/

namespace Sys2Proof.Machine

/-- The step that takes a command the decoder accepts is the meaning of that command, on the state without it. -/
theorem step_eq_exec_of_decodeCommand_ok {s : State} {c : Command} {rest : List Input} {i : Instr}
    (waits : s.inputs = .command c :: rest) (accepted : decodeCommand c = .ok i) :
    step s = exec i { s with inputs := rest } := by
  have taken : nextInput s = some (.command c, { s with inputs := rest }) := nextInput_eq_some.mpr ⟨waits, rfl⟩
  simp only [step, taken, accepted]

/-- Settles O4: a step takes the oldest input, and with none waiting it is idle. -/
theorem stepRunsTheDecodedCommand : Obligations.StepRunsTheDecodedCommand :=
  ⟨fun _ _ _ _ waits accepted => step_eq_exec_of_decodeCommand_ok waits accepted,
    fun _ idle => step_of_inputs_eq_nil idle⟩

/-- Settles O9: the reset step is `applyReset` on the state without that input, which sets the two tables only. -/
theorem resetAnswersNothing : Obligations.ResetAnswersNothing := by
  intro s p rest waits
  rw [step_of_inputs_eq_reset waits, applyReset]

end Sys2Proof.Machine
